-- ==== Sys2Proof/Word.lean ====
section
/-! DEFINITION. The plain data words of the block: the 4-bit command word (R48), the 4-bit excitation
pattern (R25), the 16-bit duty (R19, R37), and a group of four values, one per logical coil 0..3 (R18). -/

namespace Sys2Proof

/-- A command word `cmd[3:0]` (R48). -/
abbrev CmdWord := BitVec 4

/-- An excitation pattern, bit `k` for logical coil `k` (R25, R30). -/
abbrev Pattern := BitVec 4

/-- A duty `u16`, 0 = fully off, 65535 = fully on (R11, R19). -/
abbrev U16 := BitVec 16

/-- Four values of one kind, one per logical coil 0..3 (R18). -/
structure Quad (α : Type) where
  /-- The value of logical coil 0. -/
  c0 : α
  /-- The value of logical coil 1. -/
  c1 : α
  /-- The value of logical coil 2. -/
  c2 : α
  /-- The value of logical coil 3. -/
  c3 : α
deriving DecidableEq, Repr

/-- The value of logical coil `k`. -/
def Quad.get {α : Type} (q : Quad α) (k : Fin 4) : α :=
  match k with
  | 0 => q.c0
  | 1 => q.c1
  | 2 => q.c2
  | 3 => q.c3

/-- The group whose coil `k` has the value `f k`: "for k in 0..3" (R87, R90, R100). -/
def Quad.ofFn {α : Type} (f : Fin 4 → α) : Quad α :=
  { c0 := f 0, c1 := f 1, c2 := f 2, c3 := f 3 }

end Sys2Proof
end

