-- ==== Sys2Proof/Config.lean ====
section
/-! DEFINITION. What is fixed for one instance of the hardware (00_scope.md R6): the straps, sampled at reset,
and the build parameters, never changed. Both are plain data, so that every statement can range over all of them.
No value of this hardware is left free by its spec (10_state.md R34: "Nothing is left unspecified at reset"), so
there is no free value here; `LAT` is no part of the untimed model (R134). -/

namespace Sys2Proof

/-- The three straps `cfg_analog`, `cfg_m`, `cfg_freq_ok`, and the CFG register they are latched into at reset (R6, R20). -/
structure Straps where
  /-- `ANALOG`: false is digital mode, true is analog mode. -/
  analog : Bool
  /-- `M`, the microsteps per full step; looked at in analog mode only. -/
  m : Nat
  /-- `FREQ_OK`: the four analog ports meet the frequency requirement; looked at in analog mode only. -/
  freqOk : Bool
deriving DecidableEq, Repr

/-- The build parameters of R6: fixed for a given instance of the hardware, written by nothing. -/
structure Build where
  /-- `POSW`, the width of the position counter; `none` is "unbounded" (R7). -/
  posW : Option Nat
  /-- `M_MAX`, the largest microstep count. -/
  mMax : Nat
  /-- `MW`, the width of the strap `cfg_m`. -/
  mW : Nat
  /-- `PAT[SINGLE]`, 4 entries (R25). -/
  patSingle : Vector Pattern 4
  /-- `PAT[DOUBLE]`, 4 entries (R25). -/
  patDouble : Vector Pattern 4
  /-- `PAT[INTERLEAVE]`, 8 entries (R25). -/
  patInterleave : Vector Pattern 8
deriving DecidableEq, Repr

end Sys2Proof
end

