-- ==== Sys2Proof/Syntax.lean ====
section
/-! DEFINITION. The command set as syntax: the directions, the styles (00_scope.md R3) and one constructor of `Instr`
for each of the sixteen rows of spec/opcode_table.json (30_encoding.md R53), the seven reserved rows included: a
reserved command is accepted and answered like any other (R54). No command has an operand (R51). -/

namespace Sys2Proof

/-- The direction field of an ONESTEP command (R49). -/
inductive Direction where
  | forward
  | backward
deriving DecidableEq, Repr

/-- The style field of an ONESTEP command (R49). -/
inductive Style where
  | single
  | double
  | interleave
  | microstep
deriving DecidableEq, Repr

/-- The commands, in the order of the opcode map (R53). -/
inductive Instr where
  | onestepFSingle
  | onestepFDouble
  | onestepFInterleave
  | onestepFMicrostep
  | onestepBSingle
  | onestepBDouble
  | onestepBInterleave
  | onestepBMicrostep
  | release
  | reserved1001
  | reserved1010
  | reserved1011
  | reserved1100
  | reserved1101
  | reserved1110
  | reserved1111
deriving DecidableEq, Repr

/-- The three digital pattern tables (R25), which are also the values of `TSEL` other than `NONE` (R17). -/
inductive Table where
  | single
  | double
  | interleave
deriving DecidableEq, Repr

end Sys2Proof
end

