-- ==== Sys2Proof/WellFormed.lean ====
section
/-! DEFINITION. Well-formedness checks. A command has no operand, so every `Instr` is encodable (R51, R53);
what can be ill-formed is a command in a mode it can never succeed in (R53, column "legal in"), and a set of build
parameters or pattern tables outside the legal values of R6 and the constraints R26 to R28. -/

namespace Sys2Proof

/-- Every command is a legal term: both fields of the S format are closed and no command has another operand
(R49, R51, R55). The match names every constructor, so that a new one cannot slip past. -/
def Instr.wf : Instr → Bool
  | .onestepFSingle | .onestepFDouble | .onestepFInterleave | .onestepFMicrostep => true
  | .onestepBSingle | .onestepBDouble | .onestepBInterleave | .onestepBMicrostep => true
  | .release => true
  | .reserved1001 | .reserved1010 | .reserved1011 | .reserved1100 => true
  | .reserved1101 | .reserved1110 | .reserved1111 => true

/-- The column "legal in" of the opcode map (R53): in which mode (`analog`) the command can succeed. In the other
mode it is decoded the same way and answered with an error. -/
def Instr.legalIn (analog : Bool) : Instr → Bool
  | .onestepFSingle | .onestepFDouble | .onestepFInterleave => true
  | .onestepBSingle | .onestepBDouble | .onestepBInterleave => true
  | .onestepFMicrostep | .onestepBMicrostep => analog
  | .release => true
  | .reserved1001 | .reserved1010 | .reserved1011 | .reserved1100 => false
  | .reserved1101 | .reserved1110 | .reserved1111 => false

/-- How many coils a pattern energizes. -/
def Pattern.count (p : Pattern) : Nat :=
  (p.getLsbD 0).toNat + (p.getLsbD 1).toNat + (p.getLsbD 2).toNat + (p.getLsbD 3).toNat

/-- R26: every entry of `PAT[SINGLE]` has exactly one bit set and the four are pairwise different. -/
def Build.singleOk (b : Build) : Bool :=
  b.patSingle.toList.all (fun p => p.count == 1) && decide b.patSingle.toList.Nodup

/-- R27: every entry of `PAT[DOUBLE]` has exactly two bits set, the four are pairwise different, and entry `i`
is the coil of `PAT[SINGLE][i-1 mod 4]` with the coil of `PAT[SINGLE][i]`. -/
def Build.doubleOk (b : Build) : Bool :=
  b.patDouble.toList.all (fun p => p.count == 2) && decide b.patDouble.toList.Nodup &&
  (List.finRange 4).all (fun i => b.patDouble.get i == (b.patSingle.get (i + 3) ||| b.patSingle.get i))

/-- R28: `PAT[INTERLEAVE][2i] = PAT[DOUBLE][i]` and `PAT[INTERLEAVE][2i+1] = PAT[SINGLE][i]`. -/
def Build.interleaveOk (b : Build) : Bool :=
  b.patInterleave.toList ==
    (List.finRange 4).flatMap (fun i => [b.patDouble.get i, b.patSingle.get i])

/-- R6: `POSW` is at least 8 or "unbounded". -/
def Build.posWOk (b : Build) : Bool :=
  match b.posW with
  | none => true
  | some w => decide (8 ≤ w)

/-- R6: `M_MAX` is even and at least 2, and `MW` bits hold it. -/
def Build.mMaxOk (b : Build) : Bool :=
  decide (2 ≤ b.mMax) && b.mMax % 2 == 0 && decide (b.mMax < 2 ^ b.mW)

/-- The build parameters are legal (R6) and the tables have the shape R26 to R28 give them. -/
def Build.wf (b : Build) : Bool :=
  b.posWOk && b.mMaxOk && b.singleOk && b.doubleOk && b.interleaveOk

end Sys2Proof
end

