-- ==== Sys2Proof/Decode.lean ====
section
/-! DEFINITION. Decoding and encoding of the command word (30_encoding.md R48 to R55). The decoder is total on
the 4-bit command port: every value has exactly one row of the opcode map (R53). A number that is no 4-bit word
cannot be presented at that port and is rejected by name. The encoder is written from the format table (R48 to R50). -/

namespace Sys2Proof

/-- Why a number is not decoded. -/
inductive DecodeError where
  /-- The number needs more than the 4 bits of `cmd[3:0]` (R48). -/
  | notAFourBitWord
deriving DecidableEq, Repr

/-- `fmt = cmd[3]`: true is format C, false is format S (R48). -/
def fmtField (w : CmdWord) : Bool := w.getLsbD 3

/-- `dir = cmd[2]` (R49). -/
def dirField (w : CmdWord) : Direction :=
  if w.getLsbD 2 then .backward else .forward

/-- `style = cmd[1:0]` (R49). -/
def styleField (w : CmdWord) : Style :=
  match (w.extractLsb' 0 2).toNat with
  | 0 => .single
  | 1 => .double
  | 2 => .interleave
  | _ => .microstep

/-- The ONESTEP command of a direction and a style (R53). -/
def onestepOf : Direction → Style → Instr
  | .forward, .single => .onestepFSingle
  | .forward, .double => .onestepFDouble
  | .forward, .interleave => .onestepFInterleave
  | .forward, .microstep => .onestepFMicrostep
  | .backward, .single => .onestepBSingle
  | .backward, .double => .onestepBDouble
  | .backward, .interleave => .onestepBInterleave
  | .backward, .microstep => .onestepBMicrostep

/-- The command of `func = cmd[2:0]` in the C format: 0 is RELEASE, 1 to 7 are reserved (R50, R54). -/
def controlOf (func : BitVec 3) : Instr :=
  match func.toNat with
  | 0 => .release
  | 1 => .reserved1001
  | 2 => .reserved1010
  | 3 => .reserved1011
  | 4 => .reserved1100
  | 5 => .reserved1101
  | 6 => .reserved1110
  | _ => .reserved1111

/-- The decoder of R53: format S by direction and style, format C by function. Total. -/
def decode (w : CmdWord) : Instr :=
  if fmtField w then controlOf (w.extractLsb' 0 3) else onestepOf (dirField w) (styleField w)

/-- The decoder on any number: one that is no 4-bit word cannot be presented at the port (R48) and is rejected by name
(DEDUCED, assumption 8). -/
def decodeNat (n : Nat) : Except DecodeError Instr :=
  if n < 16 then .ok (decode (BitVec.ofNat 4 n)) else .error .notAFourBitWord

/-- The command the decoder reads from a word of `nbits` bits with the value `w`, bit 0 the least significant:
one command is one word of 4 bits (R48), and a word with a bit set above bit 3 is answered with none (DEDUCED,
assumption 8). -/
def decodeTableWord (nbits w : Nat) : Option Instr :=
  match decodeNat (w % 2 ^ nbits) with
  | .ok i => some i
  | .error _ => none

/-- The bit of a direction (R49). -/
def dirBits : Direction → BitVec 1
  | .forward => 0#1
  | .backward => 1#1

/-- The two bits of a style (R49). -/
def styleBits : Style → BitVec 2
  | .single => 0#2
  | .double => 1#2
  | .interleave => 2#2
  | .microstep => 3#2

/-- Format S: `0`, `dir`, `style` from bit 3 down (R48). -/
def formatS (d : Direction) (st : Style) : CmdWord := 0#1 ++ dirBits d ++ styleBits st

/-- Format C: `1`, `func` from bit 3 down (R48). -/
def formatC (func : BitVec 3) : CmdWord := 1#1 ++ func

/-- The word of a command, from the formats of R48 and the values of R49, R50 and R54. -/
def encode : Instr → CmdWord
  | .onestepFSingle => formatS .forward .single
  | .onestepFDouble => formatS .forward .double
  | .onestepFInterleave => formatS .forward .interleave
  | .onestepFMicrostep => formatS .forward .microstep
  | .onestepBSingle => formatS .backward .single
  | .onestepBDouble => formatS .backward .double
  | .onestepBInterleave => formatS .backward .interleave
  | .onestepBMicrostep => formatS .backward .microstep
  | .release => formatC 0#3
  | .reserved1001 => formatC 1#3
  | .reserved1010 => formatC 2#3
  | .reserved1011 => formatC 3#3
  | .reserved1100 => formatC 4#3
  | .reserved1101 => formatC 5#3
  | .reserved1110 => formatC 6#3
  | .reserved1111 => formatC 7#3

end Sys2Proof
end

