-- ==== Sys2Proof/Machine/Curve.lean ====
section
/-! DEFINITION. The Microstep Curve (40_microstep_curve.md R59, R60): `CURVE[i] = round(65535 * sin(pi*i/(2*M)))`.
The spec takes the sine over the real numbers, exactly, and bounds `M` by the build's `M_MAX` alone. So the entry is exact
for every even `M`: a decimal fixed-point sine settles it wherever its error cannot reach a rounding boundary, and the few
entries left are settled in whole numbers (`sineAtLeast`); the one tie of R60 is written out (assumption 4). -/

namespace Sys2Proof.Machine

/-- One, in fixed point with 20 decimal digits. -/
def fixOne : Nat := 100000000000000000000

/-- The number pi in fixed point: its first 20 decimals. -/
def fixPi : Nat := 314159265358979323846

/-- The divisors `2k(2k+1)` of the sine series from one term to the next, k = 1..11. -/
def sineDivisors : List Nat := [6, 20, 42, 72, 110, 156, 210, 272, 342, 420, 506]

/-- The nested form `1 - y/d1 * (1 - y/d2 * (...))` of the sine series in `y = x^2`. -/
def sineNest (y : Nat) : List Nat → Nat
  | [] => fixOne
  | d :: ds => fixOne - y * sineNest y ds / (fixOne * d)

/-- The sine of a fixed-point angle between 0 and pi/2. -/
def fixSin (x : Nat) : Nat := x * sineNest (x * x / fixOne) sineDivisors / fixOne

/-- More than the error of `131070 * fixSin`, in units of `fixOne`. -/
def fixSlack : Nat := 100000000

/-- `k` turns by the angle `psi` whose cosine is `p / q` and whose sine is `sqrt d / q`, with `p^2 + d = q^2`: the pair
`(c, s)` with `c = q^k * cos (k * psi)` and `s * sqrt d = q^k * sin (k * psi)`, in whole numbers. -/
def turnPower (p d : Int) : Nat → Int × Int
  | 0 => (1, 0)
  | k + 1 =>
    let (c, s) := turnPower p d k
    (c * p - s * d, s * p + c)

/-- The number of quarter turns, rounded up and modulo 4, of an angle with the signs of this cosine and this sine. -/
def quarterOf (c s : Int) : Nat :=
  if 0 < s then (if 0 ≤ c then 1 else 2)
  else if s = 0 then (if 0 < c then 0 else 2)
  else (if c ≤ 0 then 3 else 0)

/-- The number of quarter turns, rounded up, in `k` turns by the angle of `turnPower`: each turn is at most two more. -/
def quarterTurns (p d : Int) : Nat → Nat
  | 0 => 0
  | k + 1 =>
    let before := quarterTurns p d k
    let (c, s) := turnPower p d (k + 1)
    before + (quarterOf c s + 4 - before % 4) % 4

/-- Whether the product of R59 reaches the boundary under `n`: `65535 * sin(pi*i/(2m)) >= n - 1/2`, for an even `m`. Let
`psi` be twice the angle whose sine is `(2n-1)/131070`; its cosine is rational. The product reaches the boundary exactly
if `m/2` turns by `psi` make no more than `i` quarter turns. -/
def sineAtLeast (m i n : Nat) : Bool :=
  let a : Int := 2 * n - 1
  let q : Int := 131070 * 131070
  let p : Int := q - 2 * a * a
  quarterTurns p (q * q - p * p) (m / 2) ≤ i

/-- `CURVE[i]` for the microstep count `m` as a number (R59): the nearest integer to `65535 * sin(pi*i/(2m))`. The
only tie, at `i = m/3`, is 32767.5 and goes to 32768 (R60). `lower` and `upper` round the two ends of the interval the
sine lies in; where they differ, `upper` is the entry exactly if the sine reaches the boundary under it. -/
def curveEntry (m i : Nat) : Nat :=
  if 3 * i = m then 32768
  else
    let twice := 2 * 65535 * fixSin (fixPi * i / (2 * m))
    let lower := (twice + fixOne - fixSlack) / (2 * fixOne)
    let upper := (twice + fixOne + fixSlack) / (2 * fixOne)
    match upper - lower with
    | 0 => lower
    | _ + 1 => if sineAtLeast m i upper then upper else lower

/-- The table `CURVE[0..m]`, `m + 1` entries of `u16` (R24, R59). -/
def curveTable (m : Nat) : List U16 :=
  (List.range (m + 1)).map (fun i => BitVec.ofNat 16 (curveEntry m i))

/-- A read of `CURVE[i]` (R12): `none` if the table has no entry `i`. R38: no rule computes such an index. -/
def curveRead (curve : List U16) (i : Int) : Option U16 :=
  if 0 ≤ i then curve[i.toNat]? else none

end Sys2Proof.Machine
end

