-- ==== Sys2Proof/Machine/Operands.lean ====
section
/-! DEFINITION. What the commands compute with, as functions of numbers alone: floor division and non-negative
remainder (00_scope.md R10), the step size (41_step_sequencer.md R71), the pattern tables (10_state.md R25 to R30),
the coil pair (42_coil_energizer.md R89) and the pin maps (10_state.md R31). -/

namespace Sys2Proof.Machine

/-- `a fdiv b` for `b > 0`: the greatest integer `q` with `q*b ≤ a` (R10). -/
abbrev fdiv (a b : Int) : Int := a / b

/-- `a mod b` for `b > 0`: the non-negative remainder `a - (a fdiv b)*b` (R10). -/
abbrev fmod (a b : Int) : Int := a % b

/-- `half = M / 2` (R71). -/
def half (m : Nat) : Int := (m : Int) / 2

/-- The alignment move: the distance to the next half-step boundary in the requested direction (R71). -/
def alignMove (m : Nat) (p : Int) (dir : Direction) : Int :=
  match dir with
  | .forward => half m - fmod p (half m)
  | .backward => fmod p (half m)

/-- The parity of the half-step index of an aligned position (R71). -/
def halfStepParity (m : Nat) (p : Int) : Int := fmod (fdiv p (half m)) 2

/-- `StepSize(p, dir, style)` of analog mode (R71). MICROSTEP is exempt from alignment (R72 (a)); SINGLE moves a full
step at even parity and DOUBLE at odd parity (R72 (b)). -/
def stepSize (m : Nat) (p : Int) (dir : Direction) (style : Style) : Int :=
  if style = .microstep then 1
  else if fmod p (half m) ≠ 0 then alignMove m p dir
  else match style with
    | .microstep => 1
    | .interleave => half m
    | .single => if halfStepParity m p = 0 then (m : Int) else half m
    | .double => if halfStepParity m p = 0 then half m else (m : Int)

/-- The size is added (FORWARD) or subtracted (BACKWARD), exactly (R67 step 4, R74). -/
def move (dir : Direction) (p size : Int) : Int :=
  match dir with
  | .forward => p + size
  | .backward => p - size

/-- `style` as the table it selects in digital mode; MICROSTEP selects none (R69, R70). -/
def tableOf : Style → Option Table
  | .single => some .single
  | .double => some .double
  | .interleave => some .interleave
  | .microstep => none

/-- `LEN[t]` (R12). -/
def tableLen : Table → Nat
  | .single => 4
  | .double => 4
  | .interleave => 8

/-- The index `p mod n` into a table of `n` entries, non-negative also for a negative position (R38, R87). -/
def wrapIndex (n : Nat) [NeZero n] (p : Int) : Fin n := Fin.ofNat n (fmod p (n : Int)).toNat

/-- `PAT[t][p mod LEN[t]]` (R87). -/
def patternAt (b : Build) (t : Table) (p : Int) : Pattern :=
  match t with
  | .single => b.patSingle.get (wrapIndex 4 p)
  | .double => b.patDouble.get (wrapIndex 4 p)
  | .interleave => b.patInterleave.get (wrapIndex 8 p)

/-- The four levels of a pattern: bit `k` is the level of logical coil `k` (R30, R87). -/
def patternLevels (pat : Pattern) : Quad Bool := Quad.ofFn (fun k => pat.getLsbD k.val)

/-- `trailing = (p fdiv m) mod 4`, the coil that is handing over (R89). -/
def trailing (m : Nat) (p : Int) : Fin 4 := wrapIndex 4 (fdiv p (m : Int))

/-- `leading = (trailing + 1) mod 4`, the coil that is taking over (R89). -/
def leading (m : Nat) (p : Int) : Fin 4 := trailing m p + 1

/-- `phase = p mod m`, the position inside the full step (R89). -/
def phase (m : Nat) (p : Int) : Int := fmod p (m : Int)

/-- The crossover override (R90, R91): for a style that is not MICROSTEP, two duties that are equal and non-zero
are both forced to full scale. -/
def crossover (style : Style) (lead trail : U16) : U16 × U16 :=
  if style ≠ .microstep ∧ lead = trail ∧ lead ≠ 0 then (65535, 65535) else (lead, trail)

/-- The four duties of the analog energizer from the leading and the trailing duty (R90): the pair gets them, the
other two coils get 0. -/
def pairDuties (m : Nat) (p : Int) (duties : U16 × U16) : Quad U16 :=
  Quad.ofFn (fun k => if k = leading m p then duties.1 else if k = trailing m p then duties.2 else 0)

/-- `Energize(style)` of analog mode (R90): the four duties at position `p`; `none` if the curve has no entry for
one of the two reads, which R38 rules out for a curve of `m + 1` entries. -/
def analogDuties (curve : List U16) (m : Nat) (style : Style) (p : Int) : Option (Quad U16) :=
  match curveRead curve (phase m p), curveRead curve ((m : Int) - phase m p) with
  | some lead, some trail => some (pairDuties m p (crossover style lead trail))
  | _, _ => none

/-- The four physical output pins (R31). -/
inductive Pin where
  | ain1
  | ain2
  | bin1
  | bin2
deriving DecidableEq, Repr

/-- The pin logical coil `k` drives, by mode: `PINMAP_DIGITAL` and `PINMAP_ANALOG` (R31). -/
def pinOfCoil (analog : Bool) (k : Fin 4) : Pin :=
  match analog, k with
  | false, 0 => .ain1
  | false, 1 => .ain2
  | false, 2 => .bin1
  | false, 3 => .bin2
  | true, 0 => .ain2
  | true, 1 => .bin1
  | true, 2 => .ain1
  | true, 3 => .bin2

/-- The logical coil that drives a pin, by mode: the pin maps of R31 read from the pin's side (R94). -/
def coilOfPin (analog : Bool) (p : Pin) : Fin 4 :=
  match analog, p with
  | false, .ain1 => 0
  | false, .ain2 => 1
  | false, .bin1 => 2
  | false, .bin2 => 3
  | true, .ain1 => 2
  | true, .ain2 => 0
  | true, .bin1 => 1
  | true, .bin2 => 3

/-- The default tables and parameters of R6 and R29. The pattern values are the spec's own general-knowledge
default (PRESUMED, assumption 3). -/
def defaultBuild : Build :=
  { posW := some 32, mMax := 512, mW := 10,
    patSingle := #v[0b0010#4, 0b0100#4, 0b0001#4, 0b1000#4],
    patDouble := #v[0b1010#4, 0b0110#4, 0b0101#4, 0b1001#4],
    patInterleave := #v[0b1010#4, 0b0010#4, 0b0110#4, 0b0100#4, 0b0101#4, 0b0001#4, 0b1001#4, 0b1000#4] }

end Sys2Proof.Machine
end

