-- ==== Sys2Proof/Machine/Flags.lean ====
section
/-! DEFINITION. Status computations. The block has no condition codes (10_state.md R23); its only status is the error
code of a response (60_exceptions.md R105) and `CFG_ERR`, the negation of the validity of the straps (70 R119). The
range test behind PositionOverflow (41 R75) stands here too. -/

namespace Sys2Proof.Machine

/-- The values of `rsp_err` (R105); the codes 5, 6 and 7 are never produced. -/
inductive ErrorCode where
  | ok
  | configurationError
  | invalidStyleError
  | illegalCommand
  | positionOverflow
deriving DecidableEq, Repr

/-- `rsp_err[2:0]` (R105). -/
def errorBits : ErrorCode → BitVec 3
  | .ok => 0#3
  | .configurationError => 1#3
  | .invalidStyleError => 2#3
  | .illegalCommand => 3#3
  | .positionOverflow => 4#3

/-- `ConfigValid(analog, m, freq_ok)` (R119). -/
def configValid (b : Build) (st : Straps) : Bool :=
  if st.analog then decide (2 ≤ st.m) && st.m % 2 == 0 && decide (st.m ≤ b.mMax) && st.freqOk else true

/-- The straps as the port carries them: `cfg_m` has `MW` bits (R6, R32). -/
def latchStraps (b : Build) (st : Straps) : Straps := { st with m := st.m % 2 ^ b.mW }

/-- `POS_MIN ≤ p ≤ POS_MAX` (R11, R75); always true for an unbounded counter (R7). -/
def inRange (b : Build) (p : Int) : Bool :=
  match b.posW with
  | none => true
  | some w => decide (-(2 : Int) ^ (w - 1) ≤ p) && decide (p ≤ (2 : Int) ^ (w - 1) - 1)

/-- The 2-bit encoding of `TSEL` (R17); `none` is `NONE`. -/
def tselBits : Option Table → BitVec 2
  | none => 0#2
  | some .single => 1#2
  | some .double => 2#2
  | some .interleave => 3#2

end Sys2Proof.Machine
end

