-- ==== Sys2Proof/Machine/State.lean ====
section
/-! DEFINITION. The state of the block (10_state.md R14, R20, R34), the values at its ports that the spec gives a
meaning (R32, 20_memory.md R41, 30_encoding.md R52), and the reasons a step can stop. There is no program counter
(R22), no memory (R36), no flag (R23) and no interrupt (R113), so there is no field for one. Plain data throughout. -/

namespace Sys2Proof.Machine

/-- The four output registers `OUT[0..3]` (R18). All four have the shape of the mode (R19): levels of 1 bit in digital
mode, duties of 16 bits in analog mode. -/
inductive Outputs where
  /-- Digital mode: `true` is level true, coil energized. -/
  | levels (q : Quad Bool)
  /-- Analog mode: 0 is fully off, 65535 fully on. -/
  | duties (q : Quad U16)
deriving DecidableEq, Repr

/-- A response word (R52): the error code and the position after the command. -/
structure Response where
  /-- `rsp_err`. -/
  err : ErrorCode
  /-- `rsp_pos`. -/
  pos : Int
deriving DecidableEq, Repr

/-- The block's input pins over one transaction of the untimed model (R32, R134): what the host drives. -/
structure PortInputs where
  /-- `rst`. -/
  rst : Bool
  /-- `cfg_analog`, `cfg_m`, `cfg_freq_ok`: sampled only while `rst` is 1 (R118). -/
  straps : Straps
  /-- `cmd_valid`. -/
  cmdValid : Bool
  /-- `cmd[3:0]`. -/
  cmd : CmdWord
deriving DecidableEq, Repr

/-- The state of the machine. -/
structure State where
  /-- The build parameters (R6): written by nothing. -/
  build : Build
  /-- `CFG.ANALOG`, `CFG.M`, `CFG.FREQ_OK`: written at reset only (R20). -/
  cfg : Straps
  /-- `CFG_ERR`: written at reset only (R21). -/
  cfgErr : Bool
  /-- `CURVE[0..M]` (R24); `none` where the spec says it is absent: digital mode or an invalid configuration (R34). -/
  curve : Option (List U16)
  /-- `POS`, a signed number within `POS_MIN .. POS_MAX` (R15). -/
  pos : Int
  /-- `TSEL`; `none` is the spec's value `NONE`: no successful digital ONESTEP since reset (R17). -/
  tsel : Option Table
  /-- `OUT[0..3]` (R18). -/
  out : Outputs
  /-- The response port: `some r` is `rsp_valid` = 1 with the word `r`, `none` is `rsp_valid` = 0 (R32, R52). -/
  rsp : Option Response
  /-- `out_we`: the last command wrote `OUT` (R41). -/
  outWe : Bool
  /-- The responses produced so far, oldest first (R136): a record for the reader, read by no rule. -/
  responses : List Response
  /-- The write events so far, oldest first, each with its four new values (R41, R136): read by no rule. -/
  writeEvents : List Outputs
  /-- What the host presents from now on, next transaction first (R22: the program is the host's command sequence). -/
  inputs : List PortInputs
deriving DecidableEq, Repr

/-- Why the machine stops with a fault. -/
inductive Fault where
  /-- Raised by an analog ONESTEP whose energizer reads a curve entry that does not exist. R38 says the condition
  cannot arise, and it does not in any state that meets `State.Inv`; it stands for the states no reset leads to, where
  stopping is safe (assumption 6). -/
  | noCurveEntry
deriving DecidableEq, Repr

/-- Why the machine gives a command no meaning. -/
inductive Refusal where
  /-- Raised by `exec` for a command whose meaning is not written yet. Safe. No arm raises it: every command is modelled. -/
  | notModelled (mnemonic : String)
deriving DecidableEq, Repr

/-- All four outputs off, in the shape of the mode (R34, R100). -/
def Outputs.off (analog : Bool) : Outputs :=
  if analog then .duties ⟨0, 0, 0, 0⟩ else .levels ⟨false, false, false, false⟩

/-- The straps of the power-on reset: analog mode with `M` = 16, the one configuration the source document works
through (95_test_vectors.md E8). The spec gives the straps no default: DESIGN CHOICE, assumption 1. -/
def defaultStraps : Straps := { analog := true, m := 16, freqOk := true }

/-- The machine right after reset (R34, R118) with the default build parameters and straps, nothing presented by
the host and no history. -/
def State.reset : State :=
  { build := defaultBuild
    cfg := latchStraps defaultBuild defaultStraps
    cfgErr := !configValid defaultBuild (latchStraps defaultBuild defaultStraps)
    curve := some (curveTable 16)
    pos := 0
    tsel := none
    out := Outputs.off true
    rsp := none
    outWe := false
    responses := []
    writeEvents := []
    inputs := [] }

end Sys2Proof.Machine
end

