-- ==== Sys2Proof/Machine/Ops.lean ====
section
/-! DEFINITION. The named operations over the state: what the port presents next, reset (70_reset_and_hazards.md R118),
the response and the commit of a command (20_memory.md R40, 30_encoding.md R52), raising an error (60_exceptions.md R106),
the coil energizer (42_coil_energizer.md R87, R90) and the output pins (10_state.md R31, R32).

Raising an error is this block's exception entry. There is no return from one beside it: R114 says there is nothing to
return from, the next command is accepted and executed normally. -/

namespace Sys2Proof.Machine

/-- `CURVE` after a reset with the latched straps (R34, R118): the table for `M` in analog mode with a valid
configuration, otherwise absent. -/
def curveFor (b : Build) (st : Straps) : Option (List U16) :=
  if st.analog && configValid b st then some (curveTable st.m) else none

/-- Reset (R118). The straps are latched, `CFG_ERR` is computed, `POS`, `TSEL`, `OUT` and the response port are cleared
and no write event is produced. The build parameters, the records of what happened before and what the host presents
next are no state of the block, and reset leaves them. -/
def takeReset (st : Straps) (s : State) : State :=
  let latched := latchStraps s.build st
  { s with
    cfg := latched
    cfgErr := !configValid s.build latched
    curve := curveFor s.build latched
    pos := 0
    tsel := none
    out := Outputs.off latched.analog
    rsp := none
    outWe := false }

/-- No command and no reset: the block is idle and keeps all its state (R117); no response is valid and nothing is
being written (R32). -/
def idle (s : State) : State := { s with rsp := none, outWe := false }

/-- The response to a command: the error code, and the position as it stands now (R52, R135). -/
def respond (e : ErrorCode) (s : State) : State :=
  { s with rsp := some ⟨e, s.pos⟩, responses := s.responses ++ [⟨e, s.pos⟩] }

/-- `raise <Error>` (R106): no register is written, no write event is produced, the response carries the error's code
and the unchanged `POS`. -/
def raise (e : ErrorCode) (s : State) : State := respond e { s with outWe := false }

/-- The write of all four output registers and its one write event (R39, R41). -/
def writeOutputs (o : Outputs) (s : State) : State :=
  { s with out := o, outWe := true, writeEvents := s.writeEvents ++ [o] }

/-- The commit of a successful ONESTEP, all writes together, and its response (R40, R67 steps 6 to 8). -/
def commitStep (pos : Int) (tsel : Option Table) (o : Outputs) (s : State) : State :=
  respond .ok (writeOutputs o { s with pos := pos, tsel := tsel })

/-- `Energize` in digital mode (R87), reading table `t`, which is the new `TSEL`, at the new position. -/
def energizeDigital (b : Build) (t : Table) (p : Int) : Outputs := .levels (patternLevels (patternAt b t p))

/-- `Energize(style)` in analog mode (R90) at the new position; `none` if the curve lacks an entry it reads. -/
def energizeAnalog (s : State) (style : Style) (p : Int) : Option Outputs :=
  match s.curve with
  | some c => (analogDuties c s.cfg.m style p).map .duties
  | none => none

/-- What one transaction at the port asks of the block. -/
inductive PortEvent where
  | reset (st : Straps)
  | command (w : CmdWord)
  | idle
deriving DecidableEq, Repr

/-- `cmd_ready`: 1 exactly when no command is in progress and `rst` = 0 (R135). Between the transactions of the untimed
model no command is in progress. -/
def cmdReady (p : PortInputs) : Bool := !p.rst

/-- Reset comes first: a command offered while `rst` = 1 is not accepted, and one that `rst` cuts off before its
response is abandoned with no effect (R121, R135); then a command is accepted if `cmd_valid` and `cmd_ready` are both 1
(R32); otherwise nothing happens, whatever the straps do (R118). -/
def portEvent (p : PortInputs) : PortEvent :=
  if p.rst then .reset p.straps
  else if p.cmdValid && cmdReady p then .command p.cmd
  else .idle

/-- The next transaction and the state from which it is handled. A host that presents nothing leaves the block idle. -/
def nextEvent (s : State) : PortEvent × State :=
  match s.inputs with
  | [] => (.idle, s)
  | p :: rest => (portEvent p, { s with inputs := rest })

/-- A transaction that presents the command word `w` and holds the straps where they are. -/
def presentCommand (w : CmdWord) (s : State) : PortInputs :=
  { rst := false, straps := s.cfg, cmdValid := true, cmd := w }

/-- The value at an output pin (R19, R94): a level or a duty. -/
inductive PortValue where
  | level (b : Bool)
  | duty (d : U16)
deriving DecidableEq, Repr

/-- `OUT[k]`. -/
def Outputs.get (o : Outputs) (k : Fin 4) : PortValue :=
  match o with
  | .levels q => .level (q.get k)
  | .duties q => .duty (q.get k)

/-- `OUT[k]` as a number: 0 or 1 in digital mode, the duty in analog mode (R19). -/
def Outputs.value (o : Outputs) (k : Fin 4) : U16 :=
  match o with
  | .levels q => if q.get k then 1 else 0
  | .duties q => q.get k

/-- The value each pin carries at all times, through the pin map of the mode (R31, R94). -/
def pinValue (s : State) (p : Pin) : PortValue := s.out.get (coilOfPin s.cfg.analog p)

/-- The pin `cfg_err` (R20, R32). -/
def cfgErrPin (s : State) : Bool := s.cfgErr

/-- `rsp_valid` (R32). -/
def rspValid (s : State) : Bool := s.rsp.isSome

/-- `rsp_err[2:0]`, valid when `rsp_valid` = 1 (R32, R105). -/
def rspErr (s : State) : Option (BitVec 3) := s.rsp.map (fun r => errorBits r.err)

/-- `rsp_pos` in two's complement of `POSW` bits (R37 (d)), for a finite `POSW`, when `rsp_valid` = 1. -/
def rspPos (s : State) (w : Nat) : Option (BitVec w) := s.rsp.map (fun r => BitVec.ofInt w r.pos)

end Sys2Proof.Machine
end

