-- ==== Sys2Proof/Machine/Onestep.lean ====
section
/-! DEFINITION. The Step Sequencer and the eight ONESTEP commands (41_step_sequencer.md R67 to R86). The shared procedure
is R67; each command is that procedure at its direction and style (R78 to R85). -/

namespace Sys2Proof.Machine

/-- Steps 3 to 8 of R67 in digital mode (R69): the size is 1, the style's table is selected, and the energizer reads
that table at the new position. -/
def onestepDigital (dir : Direction) (t : Table) (s : State) : Host.Outcome State Fault Refusal :=
  let new := move dir s.pos 1
  if inRange s.build new then .next (commitStep new (some t) (energizeDigital s.build t new) s)
  else .next (raise .positionOverflow s)

/-- Steps 3 to 8 of R67 in analog mode: the size is `StepSize` (R71) and `TSEL` is not written (R17). -/
def onestepAnalog (dir : Direction) (style : Style) (s : State) : Host.Outcome State Fault Refusal :=
  let new := move dir s.pos (stepSize s.cfg.m s.pos dir style)
  if inRange s.build new then
    match energizeAnalog s style new with
    | some o => .next (commitStep new s.tsel o s)
    | none => .fault .noCurveEntry
  else .next (raise .positionOverflow s)

/-- `ONESTEP(dir, style)` (R67): the configuration check, the style check, then the mode's branch (R68, R70). -/
def onestep (dir : Direction) (style : Style) (s : State) : Host.Outcome State Fault Refusal :=
  if s.cfgErr then .next (raise .configurationError s)
  else if s.cfg.analog then onestepAnalog dir style s
  else match tableOf style with
    | none => .next (raise .invalidStyleError s)
    | some t => onestepDigital dir t s

/-- `ONESTEP.F.SINGLE` (R78). -/
def execOnestepFSingle (s : State) : Host.Outcome State Fault Refusal := onestep .forward .single s

/-- `ONESTEP.F.DOUBLE` (R79). -/
def execOnestepFDouble (s : State) : Host.Outcome State Fault Refusal := onestep .forward .double s

/-- `ONESTEP.F.INTERLEAVE` (R80). -/
def execOnestepFInterleave (s : State) : Host.Outcome State Fault Refusal := onestep .forward .interleave s

/-- `ONESTEP.F.MICROSTEP` (R81). -/
def execOnestepFMicrostep (s : State) : Host.Outcome State Fault Refusal := onestep .forward .microstep s

/-- `ONESTEP.B.SINGLE` (R82). -/
def execOnestepBSingle (s : State) : Host.Outcome State Fault Refusal := onestep .backward .single s

/-- `ONESTEP.B.DOUBLE` (R83). -/
def execOnestepBDouble (s : State) : Host.Outcome State Fault Refusal := onestep .backward .double s

/-- `ONESTEP.B.INTERLEAVE` (R84). -/
def execOnestepBInterleave (s : State) : Host.Outcome State Fault Refusal := onestep .backward .interleave s

/-- `ONESTEP.B.MICROSTEP` (R85). -/
def execOnestepBMicrostep (s : State) : Host.Outcome State Fault Refusal := onestep .backward .microstep s

end Sys2Proof.Machine
end

