-- ==== Sys2Proof/Machine/Release.lean ====
section
/-! DEFINITION. RELEASE (43_release.md R100 to R103): all four outputs off, the position kept. -/

namespace Sys2Proof.Machine

/-- `RELEASE` (R100): the four writes are one commit and one write event; `POS` and `TSEL` stay (R101). -/
def execRelease (s : State) : Host.Outcome State Fault Refusal :=
  if s.cfgErr then .next (raise .configurationError s)
  else .next (respond .ok (writeOutputs (Outputs.off s.cfg.analog) s))

end Sys2Proof.Machine
end

