-- ==== Sys2Proof/Machine/Reserved.lean ====
section
/-! DEFINITION. The seven reserved command words (30_encoding.md R54): accepted like any other, answered with
IllegalCommand (60_exceptions.md R109), or with ConfigurationError while `CFG_ERR` is 1 (R112), changing nothing. -/

namespace Sys2Proof.Machine

/-- The shared procedure of a reserved command (R54, R112). -/
def reservedCommand (s : State) : Host.Outcome State Fault Refusal :=
  if s.cfgErr then .next (raise .configurationError s)
  else .next (raise .illegalCommand s)

/-- The reserved word `1001`, function 1 (R53, R54). -/
def execReserved1001 (s : State) : Host.Outcome State Fault Refusal := reservedCommand s

/-- The reserved word `1010`, function 2 (R53, R54). -/
def execReserved1010 (s : State) : Host.Outcome State Fault Refusal := reservedCommand s

/-- The reserved word `1011`, function 3 (R53, R54). -/
def execReserved1011 (s : State) : Host.Outcome State Fault Refusal := reservedCommand s

/-- The reserved word `1100`, function 4 (R53, R54). -/
def execReserved1100 (s : State) : Host.Outcome State Fault Refusal := reservedCommand s

/-- The reserved word `1101`, function 5 (R53, R54). -/
def execReserved1101 (s : State) : Host.Outcome State Fault Refusal := reservedCommand s

/-- The reserved word `1110`, function 6 (R53, R54). -/
def execReserved1110 (s : State) : Host.Outcome State Fault Refusal := reservedCommand s

/-- The reserved word `1111`, function 7 (R53, R54). -/
def execReserved1111 (s : State) : Host.Outcome State Fault Refusal := reservedCommand s

end Sys2Proof.Machine
end

