-- ==== Sys2Proof/Machine/Dispatch.lean ====
section
/-! DEFINITION. The dispatch of a decoded command to its meaning: one arm per constructor of `Instr` (70_reset_and_hazards.md R135). -/

namespace Sys2Proof.Machine

def exec (i : Instr) (s : State) : Host.Outcome State Fault Refusal :=
  match i with
  | .onestepFSingle => Sys2Proof.Machine.execOnestepFSingle s
  | .onestepFDouble => Sys2Proof.Machine.execOnestepFDouble s
  | .onestepFInterleave => Sys2Proof.Machine.execOnestepFInterleave s
  | .onestepFMicrostep => Sys2Proof.Machine.execOnestepFMicrostep s
  | .onestepBSingle => Sys2Proof.Machine.execOnestepBSingle s
  | .onestepBDouble => Sys2Proof.Machine.execOnestepBDouble s
  | .onestepBInterleave => Sys2Proof.Machine.execOnestepBInterleave s
  | .onestepBMicrostep => Sys2Proof.Machine.execOnestepBMicrostep s
  | .release => Sys2Proof.Machine.execRelease s
  | .reserved1001 => Sys2Proof.Machine.execReserved1001 s
  | .reserved1010 => Sys2Proof.Machine.execReserved1010 s
  | .reserved1011 => Sys2Proof.Machine.execReserved1011 s
  | .reserved1100 => Sys2Proof.Machine.execReserved1100 s
  | .reserved1101 => Sys2Proof.Machine.execReserved1101 s
  | .reserved1110 => Sys2Proof.Machine.execReserved1110 s
  | .reserved1111 => Sys2Proof.Machine.execReserved1111 s

end Sys2Proof.Machine
end

