-- ==== Sys2Proof/Machine/Step.lean ====
section
/-! DEFINITION. One step of the machine: one transaction at the block's ports (70_reset_and_hazards.md R118, R134, R135).
The model is untimed, as R134 says: one command, one step. -/

namespace Sys2Proof.Machine

/-- One step: a reset (R118), a command decoded and run to its response (R135), or idle (R117). -/
def step (s : State) : Host.Outcome State Fault Refusal :=
  match nextEvent s with
  | (.reset st, s') => .next (takeReset st s')
  | (.command w, s') => exec (decode w) s'
  | (.idle, s') => .next (idle s')

/-- `s` with the command word `w` presented at the command port before everything else the host presents. The word has
4 bits (R48). The block fetches nothing (10_state.md R22): this stands for the host's presenting the word (assumption 2). -/
def State.withFetchWord (s : State) (nbits w : Nat) : State :=
  { s with inputs := presentCommand (BitVec.ofNat 4 (w % 2 ^ nbits)) s :: s.inputs }

end Sys2Proof.Machine
end

