-- ==== Sys2Proof/Safety.lean ====
section
/-! DEFINITION. The terms the statements use: what a command leaves behind, the excitation the spec gives a position
(written coil by coil from R87 and R90, apart from the machine's own energizer), the invariants of the machine, and a
command repeated. A run of this machine is safe if it never stops: the block never halts (70_reset_and_hazards.md R136). -/

namespace Sys2Proof.Machine

/-- The state an outcome carries, if it is a next state. -/
def resultState (o : Host.Outcome State Fault Refusal) : Option State :=
  match o with
  | .next s => some s
  | .fault _ => none
  | .refused _ => none

/-- What an error leaves behind (R106): the state as it was, but for the response port and its record, and no write. -/
def afterError (s : State) (e : ErrorCode) : State :=
  { s with rsp := some ⟨e, s.pos⟩, outWe := false, responses := s.responses ++ [⟨e, s.pos⟩] }

/-- What a successful command leaves behind (R40, R41, R52): the new position, table select and outputs, the response
OK with the new position, and one write event; everything else is as it was. -/
def afterSuccess (s : State) (pos : Int) (tsel : Option Table) (out : Outputs) : State :=
  { s with
    pos := pos, tsel := tsel, out := out,
    rsp := some ⟨.ok, pos⟩, outWe := true,
    responses := s.responses ++ [⟨.ok, pos⟩], writeEvents := s.writeEvents ++ [out] }

/-- The microstep counts of a legal analog configuration (R6), but for the bound `M_MAX`. -/
abbrev LegalCount (m : Nat) : Prop := 2 ≤ m ∧ m % 2 = 0

/-- The entries of `PAT[t]`, index 0 first (R25). -/
def tableEntries (b : Build) (t : Table) : List Pattern :=
  match t with
  | .single => b.patSingle.toList
  | .double => b.patDouble.toList
  | .interleave => b.patInterleave.toList

/-- The levels R87 gives at position `p` with table `t`: coil `k` has bit `k` of the entry `p mod LEN[t]`. -/
def DigitalExcitation (b : Build) (t : Table) (p : Int) (q : Quad Bool) : Prop :=
  ∃ pat : Pattern, (tableEntries b t)[(p % (tableLen t : Int)).toNat]? = some pat ∧
    ∀ k : Fin 4, q.get k = pat.getLsbD k.val

/-- The duties R89 to R91 give at position `p`: the leading coil `((p fdiv m) mod 4 + 1) mod 4` has `CURVE[p mod m]`,
the trailing coil `(p fdiv m) mod 4` has `CURVE[m - p mod m]`, the other two have 0; for a style that is not MICROSTEP
(`coarse`), two equal and non-zero duties are both 65535. -/
def AnalogExcitation (curve : List U16) (m : Nat) (coarse : Bool) (p : Int) (q : Quad U16) : Prop :=
  ∃ lead trail : U16,
    curve[(p % (m : Int)).toNat]? = some lead ∧
    curve[((m : Int) - p % (m : Int)).toNat]? = some trail ∧
    ∀ k : Fin 4, q.get k =
      if (k.val : Int) = (p / (m : Int) % 4 + 1) % 4 then
        (if coarse = true ∧ lead = trail ∧ lead ≠ 0 then 65535 else lead)
      else if (k.val : Int) = p / (m : Int) % 4 then
        (if coarse = true ∧ lead = trail ∧ lead ≠ 0 then 65535 else trail)
      else 0

/-- The command `i` at `s` is a digital step to `new` with table `t` (R67 steps 5 to 8, R69): in range it completes,
out of range it raises PositionOverflow. -/
def DigitalStep (i : Instr) (s : State) (t : Table) (new : Int) : Prop :=
  (inRange s.build new = true →
    ∃ q : Quad Bool, DigitalExcitation s.build t new q ∧
      exec i s = .next (afterSuccess s new (some t) (.levels q))) ∧
  (inRange s.build new = false → exec i s = .next (afterError s .positionOverflow))

/-- The command `i` at `s`, whose curve table is `curve`, is an analog step to `new` of a coarse style or of MICROSTEP
(R67 steps 5 to 8): in range it completes, out of range it raises PositionOverflow. -/
def AnalogStep (i : Instr) (s : State) (curve : List U16) (coarse : Bool) (new : Int) : Prop :=
  (inRange s.build new = true →
    ∃ q : Quad U16, AnalogExcitation curve s.cfg.m coarse new q ∧
      exec i s = .next (afterSuccess s new s.tsel (.duties q))) ∧
  (inRange s.build new = false → exec i s = .next (afterError s .positionOverflow))

/-- `s` is in digital mode and accepts commands. -/
abbrev DigitalReady (s : State) : Prop := s.cfgErr = false ∧ s.cfg.analog = false

/-- `s` is in analog mode with a legal microstep count and the curve table `curve` of `M` + 1 entries, and accepts
commands. -/
abbrev AnalogReady (s : State) (curve : List U16) : Prop :=
  s.cfgErr = false ∧ s.cfg.analog = true ∧ LegalCount s.cfg.m ∧
    s.curve = some curve ∧ curve.length = s.cfg.m + 1

/-- The position an analog ONESTEP moves to (R67 steps 3 and 4). -/
def nextPos (m : Nat) (p : Int) (dir : Direction) (style : Style) : Int :=
  move dir p (stepSize m p dir style)

/-- Settled for a style (R73): the style's own grid. -/
def Settled (m : Nat) (style : Style) (p : Int) : Prop :=
  match style with
  | .single => p % (m : Int) = 0
  | .double => p % (m : Int) = (m : Int) / 2
  | .interleave => p % ((m : Int) / 2) = 0
  | .microstep => True

/-- The nominal size of a style's own step (R73). -/
def nominalSize (m : Nat) (style : Style) : Int :=
  match style with
  | .single => (m : Int)
  | .double => (m : Int)
  | .interleave => (m : Int) / 2
  | .microstep => 1

/-- A command given `n` times in a row; a stop ends the row. -/
def repeatCommand (i : Instr) : Nat → State → Host.Outcome State Fault Refusal
  | 0, s => .next s
  | n + 1, s =>
    match exec i s with
    | .next t => repeatCommand i n t
    | .fault r => .fault r
    | .refused r => .refused r

/-- Whether a command is one of the seven reserved words (R54). -/
def isReserved (i : Instr) : Bool :=
  match i with
  | .reserved1001 | .reserved1010 | .reserved1011 | .reserved1100 => true
  | .reserved1101 | .reserved1110 | .reserved1111 => true
  | .onestepFSingle | .onestepFDouble | .onestepFInterleave | .onestepFMicrostep => false
  | .onestepBSingle | .onestepBDouble | .onestepBInterleave | .onestepBMicrostep => false
  | .release => false

/-- The direction and style of an ONESTEP command (R49). -/
def stepFields (i : Instr) : Option (Direction × Style) :=
  match i with
  | .onestepFSingle => some (.forward, .single)
  | .onestepFDouble => some (.forward, .double)
  | .onestepFInterleave => some (.forward, .interleave)
  | .onestepFMicrostep => some (.forward, .microstep)
  | .onestepBSingle => some (.backward, .single)
  | .onestepBDouble => some (.backward, .double)
  | .onestepBInterleave => some (.backward, .interleave)
  | .onestepBMicrostep => some (.backward, .microstep)
  | .release => none
  | .reserved1001 | .reserved1010 | .reserved1011 | .reserved1100 => none
  | .reserved1101 | .reserved1110 | .reserved1111 => none

/-- The position an ONESTEP at `s` computes (R67 steps 3 and 4). -/
def computedPos (s : State) (dir : Direction) (style : Style) : Int :=
  if s.cfg.analog then nextPos s.cfg.m s.pos dir style else move dir s.pos 1

/-- The error code the response to `i` at `s` carries, by the priority of R112. -/
def dueError (i : Instr) (s : State) : ErrorCode :=
  if s.cfgErr then .configurationError
  else if isReserved i then .illegalCommand
  else match stepFields i with
    | none => .ok
    | some (dir, style) =>
      if s.cfg.analog = false ∧ style = .microstep then .invalidStyleError
      else if inRange s.build (computedPos s dir style) then .ok
      else .positionOverflow

/-- The registers of the block and its configuration are the same in two states (R14). -/
abbrev SameMachine (s t : State) : Prop :=
  t.build = s.build ∧ t.cfg = s.cfg ∧ t.cfgErr = s.cfgErr ∧ t.curve = s.curve ∧
    t.pos = s.pos ∧ t.tsel = s.tsel ∧ t.out = s.out

/-- Whether the output registers have the shape of analog mode (R19). -/
def Outputs.isDuties (o : Outputs) : Bool :=
  match o with
  | .levels _ => false
  | .duties _ => true

/-- The machine's main invariant: legal build parameters, a latched configuration with its `CFG_ERR` and its curve, a
position in range, `TSEL` held at `NONE` in analog mode, outputs in the shape of the mode, and an invalid configuration
in which nothing has moved. -/
structure State.Inv (s : State) : Prop where
  /-- R6, R26 to R28. -/
  build_wf : s.build.wf = true
  /-- `M` fits in `MW` bits (R20). -/
  latched : s.cfg.m < 2 ^ s.build.mW
  /-- R21, R119. -/
  cfgErr_eq : s.cfgErr = !configValid s.build s.cfg
  /-- R34, R65. -/
  curve_eq : s.curve = curveFor s.build s.cfg
  /-- R11, R15. -/
  pos_range : inRange s.build s.pos = true
  /-- R17. -/
  tsel_analog : s.cfg.analog = true → s.tsel = none
  /-- R19. -/
  out_shape : s.out.isDuties = s.cfg.analog
  /-- R107. -/
  invalid_rest : s.cfgErr = true → s.pos = 0 ∧ s.tsel = none ∧ s.out = Outputs.off s.cfg.analog

/-- What `OUT` remembers (R96): all off, or the excitation of the current position for the selected table (digital
mode) or for some style (analog mode). -/
def State.Excited (s : State) : Prop :=
  s.out = Outputs.off s.cfg.analog ∨
  (s.cfg.analog = false ∧ ∃ t q, s.tsel = some t ∧ s.out = .levels q ∧ DigitalExcitation s.build t s.pos q) ∨
  (s.cfg.analog = true ∧ ∃ curve coarse q, s.curve = some curve ∧ s.out = .duties q ∧
    AnalogExcitation curve s.cfg.m coarse s.pos q)

/-- The records agree with each other and with the port (R41, R52): one write event for each response OK, a valid
response is the last one recorded and carries the position, and `out_we` shows the last write event, which is `OUT`. -/
structure State.Recorded (s : State) : Prop where
  /-- R41. -/
  count : s.writeEvents.length = (s.responses.filter (fun r => r.err == .ok)).length
  /-- R52, R16. -/
  last : ∀ r, s.rsp = some r → s.responses.getLast? = some r ∧ r.pos = s.pos
  /-- R41. -/
  write : s.outWe = true → s.writeEvents.getLast? = some s.out ∧ s.rsp = some ⟨.ok, s.pos⟩

end Sys2Proof.Machine
end

