-- ==== Sys2Proof/Certificates/Slice0/Obligations.lean ====
section
/-! DEFINITION. The statements for the provers, drawn from the spec's numbered rules. No statement rests on the straps or
build parameters of `State.reset` (assumptions 1 and 3) but those that say so; each ranges over all of them. -/

open Sys2Proof Sys2Proof.Machine

/-! ### Encoding -/

/-- Decoding and encoding are inverse on the whole command port: every command's word decodes to it, and every 4-bit word is
the word of the command it decodes to (R48, R53). The third clause, that a value wider than 4 bits decodes to nothing, is no
rule of the spec but the model's reading (DEDUCED, assumption 8). -/
def Obligations.DecodeAndEncodeAreInverse : Prop :=
  ∀ nbits : Nat, 4 ≤ nbits →
    (∀ i : Instr, i.wf = true → decodeTableWord nbits (encode i).toNat = some i) ∧
    (∀ w : Nat, w < 16 → ∃ i : Instr, decodeTableWord nbits w = some i ∧ (encode i).toNat = w) ∧
    (∀ w : Nat, 16 ≤ w → w < 2 ^ nbits → decodeTableWord nbits w = none)

/-- The opcode map of R53, word by word, written out from its table. -/
def Obligations.OpcodeMapIsDecoded : Prop :=
  decode 0b0000#4 = .onestepFSingle ∧ decode 0b0001#4 = .onestepFDouble ∧
  decode 0b0010#4 = .onestepFInterleave ∧ decode 0b0011#4 = .onestepFMicrostep ∧
  decode 0b0100#4 = .onestepBSingle ∧ decode 0b0101#4 = .onestepBDouble ∧
  decode 0b0110#4 = .onestepBInterleave ∧ decode 0b0111#4 = .onestepBMicrostep ∧
  decode 0b1000#4 = .release ∧ decode 0b1001#4 = .reserved1001 ∧ decode 0b1010#4 = .reserved1010 ∧
  decode 0b1011#4 = .reserved1011 ∧ decode 0b1100#4 = .reserved1100 ∧ decode 0b1101#4 = .reserved1101 ∧
  decode 0b1110#4 = .reserved1110 ∧ decode 0b1111#4 = .reserved1111

/-- The column "legal in" of R53: a command can succeed in a mode, from some state that meets the invariant, exactly
when the column names that mode. -/
def Obligations.LegalInMeansCanSucceed : Prop :=
  ∀ (i : Instr) (analog : Bool),
    (∃ s t : State, s.Inv ∧ s.cfg.analog = analog ∧ exec i s = .next t ∧ t.rsp = some ⟨.ok, t.pos⟩) ↔
      i.legalIn analog = true

/-! ### A step of the machine -/

/-- A transaction that presents a command runs the decoded command on the state behind it, whatever the straps are
(R135, U10 of 93_implementation_defined.md). -/
def Obligations.StepRunsTheDecodedCommand : Prop :=
  ∀ (s : State) (p : PortInputs) (rest : List PortInputs),
    s.inputs = p :: rest → p.rst = false → p.cmdValid = true →
    step s = exec (decode p.cmd) { s with inputs := rest }

/-- A command that the host presents is the one the very next step runs, and nothing else of the state is touched. -/
def Obligations.PresentedCommandRunsNext : Prop :=
  ∀ (s : State) (i : Instr), step (s.withFetchWord 8 (encode i).toNat) = exec i s

/-- Reset (R118): the configuration, every register, the curve and the response port after a transaction with `rst` = 1,
also when a command is offered or cut off by it, and no write event. The strap `cfg_m` has `MW` bits. -/
def Obligations.ResetSetsEveryRegister : Prop :=
  ∀ (s : State) (p : PortInputs) (rest : List PortInputs),
    s.inputs = p :: rest → p.rst = true → p.straps.m < 2 ^ s.build.mW →
    ∃ t : State, step s = .next t ∧
      t.build = s.build ∧ t.cfg = p.straps ∧ t.cfgErr = !configValid s.build p.straps ∧
      t.pos = 0 ∧ t.tsel = none ∧ (∀ k : Fin 4, t.out.value k = 0) ∧ t.out.isDuties = p.straps.analog ∧
      (p.straps.analog = true ∧ t.cfgErr = false → t.curve = some (curveTable p.straps.m)) ∧
      (p.straps.analog = false ∨ t.cfgErr = true → t.curve = none) ∧
      t.rsp = none ∧ t.outWe = false ∧ t.writeEvents = s.writeEvents

/-- Reset is no entry of the records and takes one transaction from the host: the model's choice (assumption 7). A strap value
wider than `MW` bits reaches the block as its low `MW` bits (assumption 8). -/
def Obligations.ResetKeepsTheRecords : Prop :=
  ∀ (s : State) (p : PortInputs) (rest : List PortInputs),
    s.inputs = p :: rest → p.rst = true →
    ∃ t : State, step s = .next t ∧ t.responses = s.responses ∧ t.writeEvents = s.writeEvents ∧ t.inputs = rest ∧
      t.cfg.analog = p.straps.analog ∧ t.cfg.freqOk = p.straps.freqOk ∧ t.cfg.m = p.straps.m % 2 ^ s.build.mW

/-- Without a reset and without a command the block keeps all its state and its response port is quiet (R117). -/
def Obligations.IdleBlockKeepsItsState : Prop :=
  ∀ s : State,
    (s.inputs = [] ∨ ∃ p rest, s.inputs = p :: rest ∧ p.rst = false ∧ p.cmdValid = false) →
    step s = .next { s with rsp := none, outWe := false, inputs := s.inputs.tail }

/-- The validity of a configuration (R119). -/
def Obligations.ConfigurationValidity : Prop :=
  ∀ (b : Build) (st : Straps),
    configValid b st = true ↔
      (st.analog = false ∨ (2 ≤ st.m ∧ st.m % 2 = 0 ∧ st.m ≤ b.mMax ∧ st.freqOk = true))

/-- While `CFG_ERR` is 1 every command, reserved or not, is answered with ConfigurationError and changes nothing (R107). -/
def Obligations.InvalidConfigurationAnswersEveryCommand : Prop :=
  ∀ (s : State) (i : Instr), s.cfgErr = true → exec i s = .next (afterError s .configurationError)

/-- An invalid configuration lasts until a reset: every other step leaves the block's registers and configuration alone
(R21, R107). -/
def Obligations.InvalidConfigurationLastsUntilReset : Prop :=
  ∀ s : State, s.cfgErr = true →
    (∀ p rest, s.inputs = p :: rest → p.rst = false) →
    ∃ t : State, step s = .next t ∧ SameMachine s t ∧ t.cfgErr = true ∧ t.writeEvents = s.writeEvents

/-! ### The eight ONESTEP commands -/

/-- `ONESTEP.F.SINGLE` (R78), in both modes and with both of its errors. -/
def Obligations.ForwardSingleFollowsItsRule : Prop :=
  ∀ s : State,
    (s.cfgErr = true → exec .onestepFSingle s = .next (afterError s .configurationError)) ∧
    (DigitalReady s → DigitalStep .onestepFSingle s .single (s.pos + 1)) ∧
    (∀ curve : List U16, AnalogReady s curve →
      let m : Int := s.cfg.m
      let mis := s.pos % (m / 2)
      let size := if mis ≠ 0 then m / 2 - mis else if s.pos / (m / 2) % 2 = 0 then m else m / 2
      AnalogStep .onestepFSingle s curve true (s.pos + size))

/-- `ONESTEP.F.DOUBLE` (R79), in both modes and with both of its errors. -/
def Obligations.ForwardDoubleFollowsItsRule : Prop :=
  ∀ s : State,
    (s.cfgErr = true → exec .onestepFDouble s = .next (afterError s .configurationError)) ∧
    (DigitalReady s → DigitalStep .onestepFDouble s .double (s.pos + 1)) ∧
    (∀ curve : List U16, AnalogReady s curve →
      let m : Int := s.cfg.m
      let mis := s.pos % (m / 2)
      let size := if mis ≠ 0 then m / 2 - mis else if s.pos / (m / 2) % 2 = 0 then m / 2 else m
      AnalogStep .onestepFDouble s curve true (s.pos + size))

/-- `ONESTEP.F.INTERLEAVE` (R80), in both modes and with both of its errors. -/
def Obligations.ForwardInterleaveFollowsItsRule : Prop :=
  ∀ s : State,
    (s.cfgErr = true → exec .onestepFInterleave s = .next (afterError s .configurationError)) ∧
    (DigitalReady s → DigitalStep .onestepFInterleave s .interleave (s.pos + 1)) ∧
    (∀ curve : List U16, AnalogReady s curve →
      let m : Int := s.cfg.m
      let mis := s.pos % (m / 2)
      let size := if mis ≠ 0 then m / 2 - mis else m / 2
      AnalogStep .onestepFInterleave s curve true (s.pos + size))

/-- `ONESTEP.F.MICROSTEP` (R81): one count in analog mode, InvalidStyleError in digital mode. -/
def Obligations.ForwardMicrostepFollowsItsRule : Prop :=
  ∀ s : State,
    (s.cfgErr = true → exec .onestepFMicrostep s = .next (afterError s .configurationError)) ∧
    (DigitalReady s → exec .onestepFMicrostep s = .next (afterError s .invalidStyleError)) ∧
    (∀ curve : List U16, AnalogReady s curve → AnalogStep .onestepFMicrostep s curve false (s.pos + 1))

/-- `ONESTEP.B.SINGLE` (R82), in both modes and with both of its errors. -/
def Obligations.BackwardSingleFollowsItsRule : Prop :=
  ∀ s : State,
    (s.cfgErr = true → exec .onestepBSingle s = .next (afterError s .configurationError)) ∧
    (DigitalReady s → DigitalStep .onestepBSingle s .single (s.pos - 1)) ∧
    (∀ curve : List U16, AnalogReady s curve →
      let m : Int := s.cfg.m
      let mis := s.pos % (m / 2)
      let size := if mis ≠ 0 then mis else if s.pos / (m / 2) % 2 = 0 then m else m / 2
      AnalogStep .onestepBSingle s curve true (s.pos - size))

/-- `ONESTEP.B.DOUBLE` (R83), in both modes and with both of its errors. -/
def Obligations.BackwardDoubleFollowsItsRule : Prop :=
  ∀ s : State,
    (s.cfgErr = true → exec .onestepBDouble s = .next (afterError s .configurationError)) ∧
    (DigitalReady s → DigitalStep .onestepBDouble s .double (s.pos - 1)) ∧
    (∀ curve : List U16, AnalogReady s curve →
      let m : Int := s.cfg.m
      let mis := s.pos % (m / 2)
      let size := if mis ≠ 0 then mis else if s.pos / (m / 2) % 2 = 0 then m / 2 else m
      AnalogStep .onestepBDouble s curve true (s.pos - size))

/-- `ONESTEP.B.INTERLEAVE` (R84), in both modes and with both of its errors. -/
def Obligations.BackwardInterleaveFollowsItsRule : Prop :=
  ∀ s : State,
    (s.cfgErr = true → exec .onestepBInterleave s = .next (afterError s .configurationError)) ∧
    (DigitalReady s → DigitalStep .onestepBInterleave s .interleave (s.pos - 1)) ∧
    (∀ curve : List U16, AnalogReady s curve →
      let m : Int := s.cfg.m
      let mis := s.pos % (m / 2)
      let size := if mis ≠ 0 then mis else m / 2
      AnalogStep .onestepBInterleave s curve true (s.pos - size))

/-- `ONESTEP.B.MICROSTEP` (R85): one count back in analog mode, InvalidStyleError in digital mode. -/
def Obligations.BackwardMicrostepFollowsItsRule : Prop :=
  ∀ s : State,
    (s.cfgErr = true → exec .onestepBMicrostep s = .next (afterError s .configurationError)) ∧
    (DigitalReady s → exec .onestepBMicrostep s = .next (afterError s .invalidStyleError)) ∧
    (∀ curve : List U16, AnalogReady s curve → AnalogStep .onestepBMicrostep s curve false (s.pos - 1))

/-! ### RELEASE and the reserved commands -/

/-- RELEASE (R100): all four outputs off in the shape of the mode, everything else kept, response OK. -/
def Obligations.ReleaseTurnsAllCoilsOff : Prop :=
  ∀ s : State,
    (s.cfgErr = true → exec .release s = .next (afterError s .configurationError)) ∧
    (s.cfgErr = false → ∃ o : Outputs,
      exec .release s = .next (afterSuccess s s.pos s.tsel o) ∧
      o = (if s.cfg.analog then Outputs.duties ⟨0, 0, 0, 0⟩ else Outputs.levels ⟨false, false, false, false⟩))

/-- RELEASE is idempotent and works from every state (R102): every output is off after it, a second one leaves the same
registers and still produces a write event, and with the outputs already off, as directly after reset, no register changes. -/
def Obligations.ReleaseIsIdempotent : Prop :=
  ∀ s : State, s.cfgErr = false →
    ∃ t u : State, exec .release s = .next t ∧ exec .release t = .next u ∧ SameMachine t u ∧
      t.rsp = u.rsp ∧ u.outWe = true ∧ (∀ k : Fin 4, t.out.value k = 0) ∧ u.writeEvents = t.writeEvents ++ [t.out] ∧
      (s.out = Outputs.off s.cfg.analog → SameMachine s t)

/-- Stepping after RELEASE (R103): a command that would succeed gives, after a RELEASE, the same position, table select,
outputs and response as without it. -/
def Obligations.SteppingResumesAfterRelease : Prop :=
  ∀ (i : Instr) (s t u : State),
    (stepFields i).isSome = true → exec .release s = .next t → t.rsp = some ⟨.ok, t.pos⟩ →
    exec i s = .next u → u.rsp = some ⟨.ok, u.pos⟩ →
    ∃ v : State, exec i t = .next v ∧ SameMachine u v ∧ v.rsp = u.rsp

/-- The seven reserved words (R54), function 1 to 7 of the C format: each is accepted and answered with IllegalCommand, with
no state change and no write event. (While `CFG_ERR` is 1 they get ConfigurationError like every command, R107.) -/
def Obligations.ReservedWordsAnswerIllegalCommand : Prop :=
  ∀ s : State, s.cfgErr = false →
    exec .reserved1001 s = .next (afterError s .illegalCommand) ∧
    exec .reserved1010 s = .next (afterError s .illegalCommand) ∧
    exec .reserved1011 s = .next (afterError s .illegalCommand) ∧
    exec .reserved1100 s = .next (afterError s .illegalCommand) ∧
    exec .reserved1101 s = .next (afterError s .illegalCommand) ∧
    exec .reserved1110 s = .next (afterError s .illegalCommand) ∧
    exec .reserved1111 s = .next (afterError s .illegalCommand) ∧
    (∀ w : CmdWord, isReserved (decode w) = true ↔ 0b1001#4 ≤ w)

/-! ### Errors and responses -/

/-- The error codes (R105), and no other value of the three bits is a code. -/
def Obligations.ErrorCodesAreTheTable : Prop :=
  errorBits .ok = 0#3 ∧ errorBits .configurationError = 1#3 ∧ errorBits .invalidStyleError = 2#3 ∧
  errorBits .illegalCommand = 3#3 ∧ errorBits .positionOverflow = 4#3 ∧
  (∀ e : ErrorCode, errorBits e ≠ 5#3 ∧ errorBits e ≠ 6#3 ∧ errorBits e ≠ 7#3)

/-- Errors are precise (R106): a command whose response is not OK leaves the state it found, but for the response. -/
def Obligations.ErrorsChangeNothing : Prop :=
  ∀ (i : Instr) (s t : State) (e : ErrorCode) (p : Int),
    exec i s = .next t → t.rsp = some ⟨e, p⟩ → e ≠ .ok → t = afterError s e

/-- The priority of errors (R112): the response to every command carries the first error that applies. -/
def Obligations.FirstApplicableErrorIsReported : Prop :=
  ∀ (i : Instr) (s : State), s.Inv →
    ∃ t : State, exec i s = .next t ∧ t.rsp = some ⟨dueError i s, t.pos⟩

/-- Every accepted command produces exactly one response, which carries the position after the command (R52). -/
def Obligations.EveryCommandIsAnsweredOnce : Prop :=
  ∀ (i : Instr) (s : State), s.Inv →
    ∃ (t : State) (e : ErrorCode),
      exec i s = .next t ∧ t.rsp = some ⟨e, t.pos⟩ ∧ t.responses = s.responses ++ [⟨e, t.pos⟩] ∧
      (e ≠ .ok → t.pos = s.pos) ∧ (i = .release → t.pos = s.pos)

/-- The write event (R41): exactly one for a command answered OK, with the four new values as its payload, even if they are
the old ones; none for a command answered with an error and none for a reset. -/
def Obligations.OneWriteEventPerSuccess : Prop :=
  (∀ (i : Instr) (s t : State), exec i s = .next t →
    (t.rsp = some ⟨.ok, t.pos⟩ → t.outWe = true ∧ t.writeEvents = s.writeEvents ++ [t.out]) ∧
    (t.rsp ≠ some ⟨.ok, t.pos⟩ → t.outWe = false ∧ t.writeEvents = s.writeEvents)) ∧
  (∀ (st : Straps) (s : State), (takeReset st s).outWe = false ∧ (takeReset st s).writeEvents = s.writeEvents)

/-- The frame of every command: the build parameters, the configuration, `CFG_ERR`, the curve and what the host presents
next are as before (R8), and the response port and the record of responses are the only things an error changes. -/
def Obligations.CommandsNeverTouchTheConfiguration : Prop :=
  ∀ (i : Instr) (s t : State), exec i s = .next t →
    t.build = s.build ∧ t.cfg = s.cfg ∧ t.cfgErr = s.cfgErr ∧ t.curve = s.curve ∧ t.inputs = s.inputs

/-- The position moves only by a successful ONESTEP, and then always, by 1 in digital mode and by 1 to `M` in analog
mode (R15, R74). -/
def Obligations.OnlySuccessfulStepsMovePosition : Prop :=
  ∀ (i : Instr) (s t : State), s.Inv → exec i s = .next t →
    (t.pos ≠ s.pos ↔ (stepFields i).isSome = true ∧ t.rsp = some ⟨.ok, t.pos⟩) ∧
    (s.cfg.analog = false → |t.pos - s.pos| ≤ 1) ∧ (s.cfg.analog = true → |t.pos - s.pos| ≤ s.cfg.m)

/-- PositionOverflow never occurs with an unbounded counter (R7), and with `POSW` bits a position is in range exactly
between `POS_MIN` and `POS_MAX` (R11). -/
def Obligations.UnboundedCounterNeverOverflows : Prop :=
  (∀ (i : Instr) (s t : State), s.build.posW = none → exec i s = .next t →
    ∀ p : Int, t.rsp ≠ some ⟨.positionOverflow, p⟩) ∧
  (∀ (b : Build) (w : Nat) (p : Int), b.posW = some w →
    (inRange b p = true ↔ -(2 ^ (w - 1)) ≤ p ∧ p ≤ 2 ^ (w - 1) - 1))

/-! ### The Step Sequencer -/

/-- The size is always in `1 .. M`, 1 for MICROSTEP (R74). -/
def Obligations.StepSizeIsWithinOneFullStep : Prop :=
  ∀ (m : Nat) (p : Int) (dir : Direction) (style : Style), LegalCount m →
    1 ≤ stepSize m p dir style ∧ stepSize m p dir style ≤ m ∧ stepSize m p dir .microstep = 1

/-- Settled positions (R73): a settled style keeps its grid and moves by its nominal size; an aligned but unsettled SINGLE
or DOUBLE moves `half` and is settled; a misaligned coarse style lands aligned; two commands settle SINGLE and DOUBLE, one
settles INTERLEAVE. -/
def Obligations.StylesSettleOnTheirGrid : Prop :=
  ∀ (m : Nat) (p : Int) (dir : Direction), LegalCount m →
    (∀ style, Settled m style p →
      stepSize m p dir style = nominalSize m style ∧ Settled m style (nextPos m p dir style)) ∧
    (∀ style, style = .single ∨ style = .double → p % ((m : Int) / 2) = 0 → ¬ Settled m style p →
      stepSize m p dir style = (m : Int) / 2 ∧ Settled m style (nextPos m p dir style)) ∧
    (∀ style, style ≠ .microstep → p % ((m : Int) / 2) ≠ 0 → nextPos m p dir style % ((m : Int) / 2) = 0) ∧
    (∀ style, Settled m style (nextPos m (nextPos m p dir style) dir style)) ∧
    Settled m .interleave (nextPos m p dir .interleave)

/-- Alignment first (R86 (b)): from a misaligned position a coarse style moves to the nearest multiple of `half` in the
requested direction, skipping none. -/
def Obligations.AlignmentMoveSkipsNoDetent : Prop :=
  ∀ (m : Nat) (p : Int) (dir : Direction) (style : Style),
    LegalCount m → style ≠ .microstep → p % ((m : Int) / 2) ≠ 0 →
    nextPos m p dir style % ((m : Int) / 2) = 0 ∧
    (dir = .forward → p < nextPos m p dir style) ∧ (dir = .backward → nextPos m p dir style < p) ∧
    (∀ q : Int, q % ((m : Int) / 2) = 0 → ¬ (p < q ∧ q < nextPos m p dir style) ∧ ¬ (nextPos m p dir style < q ∧ q < p))

/-- Forward and backward sizes (R86 (e)): equal at an aligned position, adding up to `half` for a coarse style at a
misaligned one. -/
def Obligations.ForwardAndBackwardSizes : Prop :=
  ∀ (m : Nat) (p : Int) (style : Style), LegalCount m →
    (p % ((m : Int) / 2) = 0 → stepSize m p .forward style = stepSize m p .backward style) ∧
    (p % ((m : Int) / 2) ≠ 0 → style ≠ .microstep →
      stepSize m p .forward style + stepSize m p .backward style = (m : Int) / 2)

/-- The smallest configuration (R77): with `M` = 2 no position is misaligned, MICROSTEP and INTERLEAVE move by 1, SINGLE and
DOUBLE by 2 when settled and by 1 otherwise. -/
def Obligations.SmallestConfigurationNeverAligns : Prop :=
  ∀ (p : Int) (dir : Direction),
    p % ((2 : Int) / 2) = 0 ∧ stepSize 2 p dir .microstep = 1 ∧ stepSize 2 p dir .interleave = 1 ∧
    (∀ style, style = .single ∨ style = .double →
      (Settled 2 style p → stepSize 2 p dir style = 2) ∧ (¬ Settled 2 style p → stepSize 2 p dir style = 1)) ∧
    halfStepParity 2 p = p % 2

/-- Microstep count (R86 (a)): `M` MICROSTEP commands in one direction move the position by exactly `M`; the phase is the
same and the coil pair has moved on by one coil. -/
def Obligations.FullStepOfMicrosteps : Prop :=
  ∀ (s : State) (curve : List U16), AnalogReady s curve → inRange s.build s.pos = true →
    (inRange s.build (s.pos + s.cfg.m) = true → ∃ t : State,
      repeatCommand .onestepFMicrostep s.cfg.m s = .next t ∧ t.pos = s.pos + s.cfg.m ∧
      phase s.cfg.m t.pos = phase s.cfg.m s.pos ∧ trailing s.cfg.m t.pos = trailing s.cfg.m s.pos + 1) ∧
    (inRange s.build (s.pos - s.cfg.m) = true → ∃ t : State,
      repeatCommand .onestepBMicrostep s.cfg.m s = .next t ∧ t.pos = s.pos - s.cfg.m ∧
      phase s.cfg.m t.pos = phase s.cfg.m s.pos ∧ trailing s.cfg.m t.pos + 1 = trailing s.cfg.m s.pos)

/-- Direction symmetry in analog mode (R86 (c)): from a settled position, `n` FORWARD commands of a style and then `n`
BACKWARD commands of it return to the start, if the register holds the positions on the way. -/
def Obligations.SettledStepsAreUndone : Prop :=
  ∀ (s : State) (curve : List U16) (style : Style) (n : Nat),
    AnalogReady s curve → Settled s.cfg.m style s.pos → inRange s.build s.pos = true →
    inRange s.build (s.pos + n * nominalSize s.cfg.m style) = true →
    ∃ t u : State, repeatCommand (onestepOf .forward style) n s = .next t ∧
      t.pos = s.pos + n * nominalSize s.cfg.m style ∧
      repeatCommand (onestepOf .backward style) n t = .next u ∧ u.pos = s.pos

/-- Direction symmetry in digital mode (R86 (c)), from every position. -/
def Obligations.DigitalStepsAreUndone : Prop :=
  ∀ (s : State) (style : Style) (n : Nat),
    DigitalReady s → style ≠ .microstep → inRange s.build s.pos = true → inRange s.build (s.pos + n) = true →
    ∃ t u : State, repeatCommand (onestepOf .forward style) n s = .next t ∧ t.pos = s.pos + n ∧
      repeatCommand (onestepOf .backward style) n t = .next u ∧ u.pos = s.pos

/-! ### The Coil Energizer and the pins -/

/-- The digital cycle lengths (R25, R88 (b)): with legal tables, one table gives the same levels at two positions exactly
when they differ by a multiple of 4 (SINGLE, DOUBLE) or 8 (INTERLEAVE). -/
def Obligations.DigitalCycleLengths : Prop :=
  ∀ (b : Build) (t : Table) (p q : Int), b.wf = true →
    (energizeDigital b t p = energizeDigital b t q ↔ (p - q) % (tableLen t : Int) = 0)

/-- One coil at a time for SINGLE, two for DOUBLE, alternating for INTERLEAVE (R26 to R28): how many levels a digital step
leaves true, with legal tables. -/
def Obligations.DigitalStylesEnergizeOneOrTwoCoils : Prop :=
  ∀ (b : Build) (p : Int), b.wf = true →
    (patternAt b .single p).count = 1 ∧ (patternAt b .double p).count = 2 ∧
    (patternAt b .interleave p).count = (if p % 2 = 0 then 2 else 1)

/-- When the override fires (R92): for every legal `M` up to 2048, the two duties are equal and non-zero exactly at phase
`M/2`. -/
def Obligations.OverrideFiresOnlyAtTheCrossover : Prop :=
  ∀ (m : Nat) (p : Int), LegalCount m → m ≤ 2048 →
    ∃ lead trail : U16,
      curveRead (curveTable m) (phase m p) = some lead ∧
      curveRead (curveTable m) ((m : Int) - phase m p) = some trail ∧
      ((lead = trail ∧ lead ≠ 0) ↔ p % (m : Int) = (m : Int) / 2)

/-- The shape of the analog output (R93 (a) to (c)): at phase 0 the trailing coil alone is on, at full scale; elsewhere
exactly the trailing and the leading coil are on. -/
def Obligations.AnalogOutputShape : Prop :=
  ∀ (m : Nat) (style : Style) (p : Int), LegalCount m → m ≤ 2048 →
    ∃ q : Quad U16, analogDuties (curveTable m) m style p = some q ∧
      (p % (m : Int) = 0 → q.get (trailing m p) = 65535 ∧ ∀ k, k ≠ trailing m p → q.get k = 0) ∧
      (p % (m : Int) ≠ 0 → ∀ k, q.get k ≠ 0 ↔ (k = trailing m p ∨ k = leading m p))

/-- A coarse step that lands on the crossover drives both coils at full scale, a MICROSTEP leaves 46340 on both (R61, R92). -/
def Obligations.CrossoverDuties : Prop :=
  ∀ (m : Nat) (style : Style) (p : Int), LegalCount m → p % (m : Int) = (m : Int) / 2 →
    ∃ q : Quad U16, analogDuties (curveTable m) m style p = some q ∧
      (style = .microstep → q.get (trailing m p) = 46340 ∧ q.get (leading m p) = 46340) ∧
      (style ≠ .microstep → q.get (trailing m p) = 65535 ∧ q.get (leading m p) = 65535)

/-- Periods (R97): `Energize` at `p` and at `p + 4M` writes the same duties for the same style class, and `M` counts move the
pair by one coil at the same phase. -/
def Obligations.AnalogExcitationPeriod : Prop :=
  ∀ (curve : List U16) (m : Nat) (st st' : Style) (p : Int), 0 < m → (st = .microstep ↔ st' = .microstep) →
    analogDuties curve m st (p + 4 * m) = analogDuties curve m st' p ∧
    trailing m (p + m) = trailing m p + 1 ∧ leading m (p + m) = leading m p + 1 ∧ phase m (p + m) = phase m p

/-- The pins (R94): each carries its logical coil's register through the permutation of the mode. -/
def Obligations.PinsCarryTheirCoil : Prop :=
  ∀ s : State,
    (s.cfg.analog = false →
      pinValue s .ain1 = s.out.get 0 ∧ pinValue s .ain2 = s.out.get 1 ∧
      pinValue s .bin1 = s.out.get 2 ∧ pinValue s .bin2 = s.out.get 3) ∧
    (s.cfg.analog = true →
      pinValue s .ain2 = s.out.get 0 ∧ pinValue s .bin1 = s.out.get 1 ∧
      pinValue s .ain1 = s.out.get 2 ∧ pinValue s .bin2 = s.out.get 3)

/-- With the default tables both modes rotate the field through the pins in the same order (R98): the pin of the coil that
digital SINGLE energizes at position `p` is the pin of the trailing coil `p` full steps into analog mode. This rests on the
spec's general-knowledge table values (assumption 3). -/
def Obligations.BothModesRotateAlike : Prop :=
  ∀ (m : Nat) (p : Int) (k : Fin 4), 0 < m →
    ((patternAt defaultBuild .single p).getLsbD k.val = true ↔
      pinOfCoil false k = pinOfCoil true (trailing m (p * m)))

/-! ### The Microstep Curve -/

/-- The curve is the rounded quarter sine (R59, R60), for every legal `M` and without a bound on `M_MAX`: the real sine,
exact, rounded to the nearest integer with a tie going up. -/
def Obligations.CurveIsTheRoundedSine : Prop :=
  ∀ m i : Nat, LegalCount m → i ≤ m →
    ((curveTable m)[i]?.map (fun v => (v.toNat : Int))) =
      some ⌊65535 * Real.sin (Real.pi * i / (2 * m)) + 1 / 2⌋

/-- Fixed entries (R61): the first, the last and the crossover entry of every legal table. -/
def Obligations.CurveFixedEntries : Prop :=
  ∀ m : Nat, LegalCount m →
    (curveTable m).length = m + 1 ∧ (curveTable m)[0]? = some 0 ∧ (curveTable m)[m]? = some 65535 ∧
    (curveTable m)[m / 2]? = some 46340

/-- Monotonicity (R62) for every legal `M`, strict up to `M` = 402 and with two equal adjacent entries from 404 on. -/
def Obligations.CurveIsMonotone : Prop :=
  ∀ m : Nat, LegalCount m →
    (∀ i, i < m → curveEntry m i ≤ curveEntry m (i + 1)) ∧
    (m ≤ 402 → ∀ i, i < m → curveEntry m i < curveEntry m (i + 1)) ∧
    (404 ≤ m → ∃ i, i < m ∧ curveEntry m i = curveEntry m (i + 1))

/-- Equality of mirrored entries (R63): equal and positive at the middle entry and nowhere else. -/
def Obligations.MirroredEntriesDiffer : Prop :=
  ∀ m p : Nat, LegalCount m → m ≤ 2048 → p ≤ m →
    ((curveEntry m p = curveEntry m (m - p) ∧ 0 < curveEntry m p) ↔ p = m / 2)

/-- The sum property (R64) for every even `M` up to 516, and its first failure at `M` = 518. -/
def Obligations.CurveSumProperty : Prop :=
  (∀ m i : Nat, LegalCount m → m ≤ 516 → i < m / 2 →
    curveEntry m i + curveEntry m (m - i) ≤ curveEntry m (i + 1) + curveEntry m (m - i - 1)) ∧
  curveEntry 518 258 + curveEntry 518 260 = curveEntry 518 259 + curveEntry 518 259 + 1

/-! ### Invariants -/

/-- The power-on state meets the three invariants. It rests on the straps and build parameters the model chose for
`State.reset` (assumptions 1 and 3). -/
def Obligations.ResetStateMeetsTheInvariants : Prop :=
  State.reset.Inv ∧ State.reset.Excited ∧ State.reset.Recorded

/-- Every step keeps the main invariant, from every state that meets it. -/
def Obligations.StepKeepsTheInvariant : Prop :=
  ∀ s t : State, s.Inv → step s = .next t → t.Inv

/-- Every step keeps what `OUT` remembers (R96): off, or an excitation of the current position. -/
def Obligations.StepKeepsOutputsExcited : Prop :=
  ∀ s t : State, s.Excited → step s = .next t → t.Excited

/-- Every step keeps the records in agreement with each other and the port (R41, R52). -/
def Obligations.StepKeepsTheRecords : Prop :=
  ∀ s t : State, s.Recorded → step s = .next t → t.Recorded

/-- From a state that meets the invariant no step stops (R38, R136): every table index is in range and every command is
answered. -/
def Obligations.NoStepStops : Prop :=
  ∀ s : State, s.Inv → ∃ t : State, step s = .next t
end

