-- ==== Sys2Proof/Laws/Curve.lean ====
section
/-! SUPPORT. What the two computations behind the Microstep Curve are, against the real sine of 40_microstep_curve.md R59:
the fixed-point sine is close to it (`fixSin_close`), and the comparison with a rounding boundary is exact
(`sineAtLeast_iff`). -/

namespace Sys2Proof.Machine

/-! ### The fixed-point sine -/

/-- The sine series up to `x^(2n-1)`, as the imaginary part of the exponential series of `x * I`. -/
theorem exp_series_im (x : ℝ) (n : Nat) :
    (∑ k ∈ Finset.range (2 * n + 1), ((x : ℂ) * Complex.I) ^ k / (k.factorial : ℂ)).im =
      ∑ k ∈ Finset.range n, (-1) ^ k * x ^ (2 * k + 1) / ((2 * k + 1).factorial : ℝ) := by
  induction n with
  | zero => simp
  | succ n ih =>
    have hodd : (((x : ℂ) * Complex.I) ^ (2 * n + 1) / ((2 * n + 1).factorial : ℂ)).im =
        (-1) ^ n * x ^ (2 * n + 1) / ((2 * n + 1).factorial : ℝ) := by
      have h : ((x : ℂ) * Complex.I) ^ (2 * n + 1) / ((2 * n + 1).factorial : ℂ) =
          (((-1) ^ n * x ^ (2 * n + 1) / ((2 * n + 1).factorial : ℝ) : ℝ) : ℂ) * Complex.I := by
        rw [mul_pow, pow_succ Complex.I, pow_mul Complex.I, Complex.I_sq]
        push_cast
        ring
      rw [h, Complex.im_ofReal_mul, Complex.I_im, mul_one]
    have heven : (((x : ℂ) * Complex.I) ^ (2 * n + 2) / ((2 * n + 2).factorial : ℂ)).im = 0 := by
      have h : ((x : ℂ) * Complex.I) ^ (2 * n + 2) / ((2 * n + 2).factorial : ℂ) =
          (((-1) ^ (n + 1) * x ^ (2 * n + 2) / ((2 * n + 2).factorial : ℝ) : ℝ) : ℂ) := by
        rw [show 2 * n + 2 = 2 * (n + 1) by ring, mul_pow, pow_mul Complex.I, Complex.I_sq]
        push_cast
        ring
      rw [h, Complex.ofReal_im]
    rw [show 2 * (n + 1) + 1 = 2 * n + 1 + 1 + 1 by ring, Finset.sum_range_succ, Finset.sum_range_succ,
      Finset.sum_range_succ _ n, Complex.add_im, Complex.add_im, ih, hodd, heven, add_zero]

/-- Twelve terms of the sine series are enough for 20 digits up to `pi/2`. -/
theorem sine_series_close {x : ℝ} (h0 : 0 ≤ x) (h1 : x ≤ 1.5708) :
    |Real.sin x - ∑ k ∈ Finset.range 12, (-1) ^ k * x ^ (2 * k + 1) / ((2 * k + 1).factorial : ℝ)| ≤
      2 / 10 ^ 20 := by
  have hnorm : ‖(x : ℂ) * Complex.I‖ = x := by simp [abs_of_nonneg h0]
  have hexp := Complex.exp_bound' (x := (x : ℂ) * Complex.I) (n := 25) (by
    rw [hnorm]; norm_num; linarith)
  rw [hnorm] at hexp
  have him := (Complex.abs_im_le_norm _).trans hexp
  rw [Complex.sub_im, Complex.exp_ofReal_mul_I_im, exp_series_im x 12] at him
  refine him.trans ?_
  have hpow : x ^ 25 ≤ 1.5708 ^ 25 := pow_le_pow_left₀ h0 h1 25
  have hfac : ((25).factorial : ℝ) = 15511210043330985984000000 := by norm_num [Nat.factorial]
  rw [hfac]
  calc x ^ 25 / 15511210043330985984000000 * 2 ≤ 1.5708 ^ 25 / 15511210043330985984000000 * 2 := by gcongr
    _ ≤ 2 / 10 ^ 20 := by norm_num

/-- The nested sine series over the reals, `z` for the square of the angle. -/
noncomputable def realNest (z : ℝ) : List Nat → ℝ
  | [] => 1
  | d :: ds => 1 - z * realNest z ds / d

/-- The machine's divisors give twelve terms of the sine series. -/
theorem realNest_sineDivisors (x : ℝ) :
    x * realNest (x * x) sineDivisors =
      ∑ k ∈ Finset.range 12, (-1) ^ k * x ^ (2 * k + 1) / ((2 * k + 1).factorial : ℝ) := by
  simp only [Finset.sum_range_succ, Finset.sum_range_zero, sineDivisors, realNest]
  norm_num [Nat.factorial]
  ring

/-- A whole quotient is at most one below the real one. -/
theorem natDiv_bounds (a b : Nat) (hb : 0 < b) :
    (a : ℝ) / b - 1 ≤ ((a / b : Nat) : ℝ) ∧ ((a / b : Nat) : ℝ) ≤ (a : ℝ) / b := by
  refine ⟨?_, Nat.cast_div_le⟩
  have h : a < (a / b + 1) * b := by
    rw [Nat.add_mul, Nat.one_mul]
    exact Nat.lt_div_mul_add hb
  have h' : (a : ℝ) < (((a / b : Nat) : ℝ) + 1) * b := by exact_mod_cast h
  rw [sub_le_iff_le_add, div_le_iff₀ (by exact_mod_cast hb)]
  exact h'.le

/-- The nested series in fixed point is within three units of the last digit, at an argument known to one unit. -/
theorem sineNest_close {y : Nat} {z : ℝ} (hz : z ≤ 2.5) (hy : (y : ℝ) / fixOne ≤ z) (hy' : z ≤ ((y : ℝ) + 1) / fixOne)
    (ds : List Nat) (hds : ∀ d ∈ ds, 6 ≤ d) :
    sineNest y ds ≤ fixOne ∧ |(sineNest y ds : ℝ) / fixOne - realNest z ds| ≤ 3 / fixOne := by
  induction ds with
  | nil => norm_num [sineNest, realNest, fixOne]
  | cons d ds ih =>
    obtain ⟨hle, hclose⟩ := ih (fun e he => hds e (List.mem_cons_of_mem d he))
    have hd : (6 : ℝ) ≤ d := by exact_mod_cast hds d List.mem_cons_self
    have hone : (fixOne : ℝ) = 10 ^ 20 := by norm_num [fixOne]
    have hone' : 0 < fixOne := by norm_num [fixOne]
    obtain ⟨q1, q2⟩ := natDiv_bounds (y * sineNest y ds) (fixOne * d) (Nat.mul_pos hone' (by have := hds d List.mem_cons_self; omega))
    refine ⟨Nat.sub_le _ _, ?_⟩
    set nest : ℝ := (sineNest y ds : ℝ) / fixOne with hnest
    set quot := y * sineNest y ds / (fixOne * d)
    set arg : ℝ := (y : ℝ) / fixOne with harg
    have harg0 : 0 ≤ arg := by positivity
    have hz' : z ≤ arg + 1 / fixOne := by rw [harg, ← add_div]; exact hy'
    have hn0 : 0 ≤ nest := by positivity
    have hn1 : nest ≤ 1 := by
      rw [hnest, div_le_one (by positivity)]; exact_mod_cast hle
    have hquot : ((y * sineNest y ds : Nat) : ℝ) / ((fixOne * d : Nat) : ℝ) = arg * nest / d * fixOne := by
      push_cast
      rw [hnest, harg, hone]
      field_simp
    rw [hquot, hone] at q1 q2
    rw [hone] at hclose hz' ⊢
    have hprod : arg * nest ≤ 2.5 := by nlinarith
    have hfrac : arg * nest / d ≤ 2.5 / 6 := by gcongr
    have hqle : quot ≤ fixOne := by
      have : (quot : ℝ) ≤ (fixOne : ℝ) := by rw [hone]; linarith
      exact_mod_cast this
    have hstep : |(z * realNest z ds - arg * nest) / d| ≤ 8.5 / 6 / 10 ^ 20 := by
      rw [abs_div, abs_of_nonneg (by linarith : (0 : ℝ) ≤ d)]
      have h : |z * realNest z ds - arg * nest| ≤ 8.5 / 10 ^ 20 := by
        have h1 : z * realNest z ds - arg * nest = (z - arg) * nest - z * (nest - realNest z ds) := by ring
        have h2 : |(z - arg) * nest| ≤ 1 / 10 ^ 20 * 1 := by
          rw [abs_mul]
          exact mul_le_mul (abs_le.2 ⟨by linarith, by linarith⟩) (abs_le.2 ⟨by linarith, hn1⟩) (abs_nonneg _) (by norm_num)
        have h3 : |z * (nest - realNest z ds)| ≤ 2.5 * (3 / 10 ^ 20) := by
          rw [abs_mul]
          exact mul_le_mul (abs_le.2 ⟨by linarith, hz⟩) hclose (abs_nonneg _) (by norm_num)
        rw [h1]
        exact (abs_sub _ _).trans (by linarith)
      rw [div_le_iff₀ (by linarith)]
      linarith
    have hval : ((sineNest y (d :: ds) : Nat) : ℝ) = 10 ^ 20 - quot := by
      show ((fixOne - quot : Nat) : ℝ) = _
      rw [Nat.cast_sub hqle, hone]
    rw [hval]
    simp only [realNest]
    have hsplit : (10 ^ 20 - (quot : ℝ)) / 10 ^ 20 - (1 - z * realNest z ds / d) =
        (z * realNest z ds - arg * nest) / d + (arg * nest / d - quot / 10 ^ 20) := by ring
    have hcut : |arg * nest / d - quot / 10 ^ 20| ≤ 1 / 10 ^ 20 := by
      rw [abs_le]
      constructor
      · have : (quot : ℝ) / 10 ^ 20 ≤ arg * nest / d := by rw [div_le_iff₀ (by norm_num)]; exact q2
        have : (0 : ℝ) ≤ 1 / 10 ^ 20 := by norm_num
        linarith
      · have : arg * nest / d - 1 / 10 ^ 20 ≤ (quot : ℝ) / 10 ^ 20 := by
          rw [le_div_iff₀ (by norm_num)]; linarith
        linarith
    rw [hsplit]
    exact (abs_add_le _ _).trans (by linarith)

/-- The fixed-point sine is within ten units of the last of its 20 digits. -/
theorem fixSin_close {m i : Nat} (hm : 0 < m) (hi : i ≤ m) :
    |(fixSin (fixPi * i / (2 * m)) : ℝ) / fixOne - Real.sin (Real.pi * i / (2 * m))| ≤ 10 / fixOne := by
  have hone : (fixOne : ℝ) = 10 ^ 20 := by norm_num [fixOne]
  have hone' : 0 < fixOne := by norm_num [fixOne]
  have hm1 : (0 : ℝ) < m := by exact_mod_cast hm
  have hi1 : (i : ℝ) ≤ m := by exact_mod_cast hi
  set x := fixPi * i / (2 * m) with hx
  set theta := Real.pi * i / (2 * m) with htheta
  set arg : ℝ := (x : ℝ) / 10 ^ 20 with harg
  obtain ⟨x1, x2⟩ := natDiv_bounds (fixPi * i) (2 * m) (by omega)
  have hpi1 := Real.pi_gt_d20
  have hpi2 := Real.pi_lt_d20
  have hfrac0 : (0 : ℝ) ≤ (i : ℝ) / (2 * m) := by positivity
  have hfrac : (i : ℝ) / (2 * m) ≤ 1 / 2 := by
    rw [div_le_div_iff₀ (by positivity) (by norm_num)]; linarith
  have hangle : ((fixPi * i : Nat) : ℝ) / ((2 * m : Nat) : ℝ) = fixPi * ((i : ℝ) / (2 * m)) := by push_cast; ring
  rw [hangle] at x1 x2
  have htheta' : theta = Real.pi * ((i : ℝ) / (2 * m)) := by rw [htheta]; ring
  have hfixPi : (fixPi : ℝ) = 3.14159265358979323846 * 10 ^ 20 := by norm_num [fixPi]
  rw [hfixPi] at x1 x2
  have harg0 : 0 ≤ arg := by positivity
  have hx10 : (x : ℝ) = arg * 10 ^ 20 := by rw [harg]; ring
  have hle : arg ≤ theta := by
    rw [htheta']; nlinarith
  have hge : theta - 2 / 10 ^ 20 ≤ arg := by
    rw [htheta']; nlinarith
  have hpi3 : arg ≤ 1.5708 := by
    rw [htheta'] at hle; nlinarith
  obtain ⟨y1, y2⟩ := natDiv_bounds (x * x) fixOne hone'
  have hsq : ((x * x : Nat) : ℝ) / (fixOne : ℝ) = arg * arg * 10 ^ 20 := by
    push_cast; rw [hx10, hone]; ring
  rw [hsq] at y1 y2
  obtain ⟨n1, n2⟩ := sineNest_close (y := x * x / fixOne) (z := arg * arg) (by nlinarith)
    (by rw [hone, div_le_iff₀ (by norm_num)]; exact y2)
    (by rw [hone, le_div_iff₀ (by norm_num)]; linarith) sineDivisors (by decide)
  rw [hone] at n2
  set nest := sineNest (x * x / fixOne) sineDivisors
  obtain ⟨f1, f2⟩ := natDiv_bounds (x * nest) fixOne hone'
  have hprod : ((x * nest : Nat) : ℝ) / (fixOne : ℝ) = arg * (nest / 10 ^ 20) * 10 ^ 20 := by
    push_cast; rw [hx10, hone]; ring
  rw [hprod] at f1 f2
  change _ ≤ (fixSin x : ℝ) at f1
  change (fixSin x : ℝ) ≤ _ at f2
  have e1 : |(fixSin x : ℝ) / 10 ^ 20 - arg * (nest / 10 ^ 20)| ≤ 1 / 10 ^ 20 := by
    rw [abs_le]
    constructor
    · have : arg * (nest / 10 ^ 20) - 1 / 10 ^ 20 ≤ (fixSin x : ℝ) / 10 ^ 20 := by
        rw [le_div_iff₀ (by norm_num)]; linarith
      linarith
    · have : (fixSin x : ℝ) / 10 ^ 20 ≤ arg * (nest / 10 ^ 20) := by
        rw [div_le_iff₀ (by norm_num)]; exact f2
      have : (0 : ℝ) ≤ 1 / 10 ^ 20 := by norm_num
      linarith
  have e2 : |arg * (nest / 10 ^ 20) - arg * realNest (arg * arg) sineDivisors| ≤ 1.5708 * (3 / 10 ^ 20) := by
    rw [← mul_sub, abs_mul, abs_of_nonneg harg0]
    exact mul_le_mul hpi3 n2 (abs_nonneg _) (by norm_num)
  have e3 := sine_series_close harg0 hpi3
  rw [← realNest_sineDivisors, abs_sub_comm] at e3
  have e4 : |Real.sin arg - Real.sin theta| ≤ 2 / 10 ^ 20 :=
    (Real.abs_sin_sub_sin_le arg theta).trans (abs_le.2 ⟨by linarith, by
      have : (0 : ℝ) ≤ 2 / 10 ^ 20 := by norm_num
      linarith⟩)
  rw [hone]
  rw [abs_le] at e1 e2 e3 e4 ⊢
  constructor <;> linarith

/-! ### The exact comparison -/

/-- `turnPower` holds the cosine and the sine of `k` turns, scaled by `q^k`. -/
theorem turnPower_spec {p d : Int} {q root psi : ℝ} (hp : (p : ℝ) = q * Real.cos psi)
    (hroot : root = q * Real.sin psi) (hd : (d : ℝ) = root * root) (k : Nat) :
    ((turnPower p d k).1 : ℝ) = q ^ k * Real.cos (k * psi) ∧
    ((turnPower p d k).2 : ℝ) * root = q ^ k * Real.sin (k * psi) := by
  induction k with
  | zero => simp [turnPower]
  | succ k ih =>
    obtain ⟨hc, hs⟩ := ih
    have hang : ((k + 1 : Nat) : ℝ) * psi = k * psi + psi := by push_cast; ring
    rw [hang, Real.cos_add, Real.sin_add]
    simp only [turnPower]
    push_cast
    constructor
    · linear_combination (p : ℝ) * hc - root * hs + q ^ k * Real.cos (k * psi) * hp
        - (turnPower p d k).2 * hd - q ^ k * Real.sin (k * psi) * hroot
    · linear_combination (p : ℝ) * hs + root * hc + q ^ k * Real.sin (k * psi) * hp
        + q ^ k * Real.cos (k * psi) * hroot

/-- The signs of a cosine and a sine give the quarter of the angle. -/
theorem quarterOf_spec {c s : Int} {size root x : ℝ} (hsize : 0 < size) (hroot : 0 < root)
    (hc : (c : ℝ) = size * Real.cos x) (hs : (s : ℝ) * root = size * Real.sin x) :
    (quarterOf c s : Int) = ⌈x / (Real.pi / 2)⌉ % 4 := by
  have hpi := Real.pi_pos
  set r := ⌈x / (Real.pi / 2)⌉ with hr
  have hlow : (r - 1 : ℝ) * (Real.pi / 2) < x := by
    rw [← lt_div_iff₀ (by positivity)]
    have h := Int.ceil_lt_add_one (x / (Real.pi / 2))
    rw [← hr] at h
    linarith
  have hhigh : x ≤ r * (Real.pi / 2) := by
    rw [← div_le_iff₀ (by positivity)]
    exact Int.le_ceil _
  have hsplit : (r : ℝ) = 4 * ((r / 4 : Int) : ℝ) + ((r % 4 : Int) : ℝ) := by
    exact_mod_cast (Int.mul_ediv_add_emod r 4).symm
  set y := x - ((r / 4 : Int) : ℝ) * (2 * Real.pi) with hy
  have hcos : Real.cos x = Real.cos y := (Real.cos_sub_int_mul_two_pi x (r / 4)).symm
  have hsin : Real.sin x = Real.sin y := (Real.sin_sub_int_mul_two_pi x (r / 4)).symm
  rw [hcos] at hc
  rw [hsin] at hs
  have hlow' : (((r % 4 : Int) : ℝ) - 1) * (Real.pi / 2) < y := by
    rw [hsplit] at hlow
    linarith
  have hhigh' : y ≤ ((r % 4 : Int) : ℝ) * (Real.pi / 2) := by
    rw [hsplit] at hhigh
    linarith
  have csign : (0 < c ↔ 0 < Real.cos y) ∧ (0 ≤ c ↔ 0 ≤ Real.cos y) := by
    rw [← Int.cast_pos (R := ℝ), ← Int.cast_nonneg_iff (R := ℝ), hc]
    exact ⟨mul_pos_iff_of_pos_left hsize, mul_nonneg_iff_of_pos_left hsize⟩
  have ssign : (0 < s ↔ 0 < Real.sin y) ∧ (0 ≤ s ↔ 0 ≤ Real.sin y) := by
    rw [← Int.cast_pos (R := ℝ), ← Int.cast_nonneg_iff (R := ℝ), ← mul_pos_iff_of_pos_right hroot,
      ← mul_nonneg_iff_of_pos_right hroot, hs]
    exact ⟨mul_pos_iff_of_pos_left hsize, mul_nonneg_iff_of_pos_left hsize⟩
  obtain h | h | h | h : r % 4 = 0 ∨ r % 4 = 1 ∨ r % 4 = 2 ∨ r % 4 = 3 := by omega
  all_goals rw [h] at hlow' hhigh' ⊢
  all_goals norm_num at hlow' hhigh'
  · have h1 : ¬ 0 < s := by
      rw [ssign.1]; exact not_lt.2 (Real.sin_nonpos_of_nonpos_of_neg_pi_le (by linarith) (by linarith))
    have h2 : 0 < c := csign.1.2 (Real.cos_pos_of_mem_Ioo ⟨by linarith, by linarith⟩)
    simp only [quarterOf]
    split_ifs <;> first | rfl | omega
  · have h1 : 0 < s := ssign.1.2 (Real.sin_pos_of_pos_of_lt_pi (by linarith) (by linarith))
    have h2 : 0 ≤ c := csign.2.2 (Real.cos_nonneg_of_mem_Icc ⟨by linarith, by linarith⟩)
    simp [quarterOf, h1, h2]
  · have h1 : 0 ≤ s := ssign.2.2 (Real.sin_nonneg_of_nonneg_of_le_pi (by linarith) (by linarith))
    have h2 : ¬ 0 ≤ c := by
      rw [csign.2]; exact not_le.2 (Real.cos_neg_of_pi_div_two_lt_of_lt (by linarith) (by linarith))
    simp only [quarterOf]
    split_ifs <;> first | rfl | omega
  · have e1 : Real.sin y = -Real.sin (y - Real.pi) := by rw [Real.sin_sub_pi]; ring
    have e2 : Real.cos y = -Real.cos (y - Real.pi) := by rw [Real.cos_sub_pi]; ring
    have h1 : ¬ 0 ≤ s := by
      rw [ssign.2, e1]
      linarith [Real.sin_pos_of_pos_of_lt_pi (x := y - Real.pi) (by linarith) (by linarith)]
    have h2 : ¬ 0 < c := by
      rw [csign.1, e2]
      linarith [Real.cos_nonneg_of_mem_Icc (x := y - Real.pi) ⟨by linarith, by linarith⟩]
    simp only [quarterOf]
    split_ifs <;> first | rfl | omega

/-- `quarterTurns` counts the quarter turns of `k` turns by an angle up to half a turn, rounded up. -/
theorem quarterTurns_spec {p d : Int} {q root psi : ℝ} (hq : 0 < q) (hroot' : 0 < root)
    (hp : (p : ℝ) = q * Real.cos psi) (hroot : root = q * Real.sin psi) (hd : (d : ℝ) = root * root)
    (hpsi : 0 ≤ psi) (hpsi' : psi ≤ Real.pi) (k : Nat) :
    (quarterTurns p d k : Int) = ⌈k * psi / (Real.pi / 2)⌉ := by
  have hpi := Real.pi_pos
  induction k with
  | zero => simp [quarterTurns]
  | succ k ih =>
    obtain ⟨hc, hs⟩ := turnPower_spec hp hroot hd (k + 1)
    have hquarter := quarterOf_spec (pow_pos hq (k + 1)) hroot' hc hs
    have hang : ((k + 1 : Nat) : ℝ) * psi / (Real.pi / 2) = k * psi / (Real.pi / 2) + psi / (Real.pi / 2) := by
      push_cast; ring
    have hturn : 0 ≤ psi / (Real.pi / 2) := by positivity
    have hturn' : psi / (Real.pi / 2) ≤ 2 := by
      rw [div_le_iff₀ (by positivity)]; linarith
    rw [hang] at hquarter ⊢
    have hmono : ⌈k * psi / (Real.pi / 2)⌉ ≤ ⌈k * psi / (Real.pi / 2) + psi / (Real.pi / 2)⌉ :=
      Int.ceil_mono (by linarith)
    have htwo : ⌈k * psi / (Real.pi / 2) + psi / (Real.pi / 2)⌉ ≤ ⌈k * psi / (Real.pi / 2)⌉ + 2 := by
      rw [Int.ceil_le]
      push_cast
      linarith [Int.le_ceil (k * psi / (Real.pi / 2))]
    simp only [quarterTurns]
    push_cast
    omega

/-- The comparison in whole numbers is the comparison of R59's real sine with the rounding boundary under `n`. -/
theorem sineAtLeast_iff {m i n : Nat} (hm : 0 < m) (heven : m % 2 = 0) (hi : i ≤ m) (hn : 1 ≤ n) (hn' : n ≤ 65535) :
    sineAtLeast m i n = true ↔ ((2 * n - 1 : ℝ) / 131070 ≤ Real.sin (Real.pi * i / (2 * m))) := by
  have hpi := Real.pi_pos
  have hn1 : (1 : ℝ) ≤ n := by exact_mod_cast hn
  have hn2 : (n : ℝ) ≤ 65535 := by exact_mod_cast hn'
  have hm1 : (0 : ℝ) < m := by exact_mod_cast hm
  have hi1 : (i : ℝ) ≤ m := by exact_mod_cast hi
  set bound : ℝ := (2 * n - 1 : ℝ) / 131070 with hbound
  have hpos : 0 < bound := by rw [hbound]; apply div_pos <;> linarith
  have hlt : bound < 1 := by rw [hbound, div_lt_one (by norm_num)]; linarith
  set phi := Real.arcsin bound with hphi
  have hphi0 : 0 < phi := Real.arcsin_pos.2 hpos
  have hphi1 : phi < Real.pi / 2 := Real.arcsin_lt_pi_div_two.2 hlt
  have hsin : Real.sin phi = bound := Real.sin_arcsin (by linarith) hlt.le
  have hroot' : 0 < 17179344900 * Real.sin (2 * phi) :=
    mul_pos (by norm_num) (Real.sin_pos_of_pos_of_lt_pi (by linarith) (by linarith))
  have hcos : Real.cos (2 * phi) = 1 - 2 * bound ^ 2 := by
    rw [Real.cos_two_mul, ← hsin]
    linarith [Real.sin_sq_add_cos_sq phi]
  have hturns := quarterTurns_spec
    (p := 131070 * 131070 - 2 * (2 * n - 1) * (2 * n - 1))
    (d := 131070 * 131070 * (131070 * 131070) - (131070 * 131070 - 2 * (2 * n - 1) * (2 * n - 1)) *
      (131070 * 131070 - 2 * (2 * n - 1) * (2 * n - 1)))
    (by norm_num) hroot' (by rw [hcos, hbound]; push_cast; ring) rfl
    (by
      have h := Real.sin_sq_add_cos_sq (2 * phi)
      rw [hcos, hbound] at h
      push_cast
      linear_combination (-17179344900 ^ 2 : ℝ) * h)
    (psi := 2 * phi) (by linarith) (by linarith) (m / 2)
  have hhalf : ((m / 2 : Nat) : ℝ) = m / 2 := by
    rw [Nat.cast_div (by omega) (by norm_num)]; norm_num
  have hdec : sineAtLeast m i n = true ↔ ⌈((m / 2 : Nat) : ℝ) * (2 * phi) / (Real.pi / 2)⌉ ≤ (i : Int) := by
    rw [← hturns]
    simp [sineAtLeast]
  rw [hdec, Int.ceil_le, hhalf, div_le_iff₀ (by positivity),
    ← Real.arcsin_le_iff_le_sin ⟨by linarith, hlt.le⟩ ⟨?_, ?_⟩, ← hphi, le_div_iff₀ (by positivity)]
  · push_cast
    constructor <;> intro h <;> linarith
  · have : (0 : ℝ) ≤ Real.pi * i / (2 * m) := by positivity
    linarith
  · rw [div_le_iff₀ (by positivity)]
    nlinarith

end Sys2Proof.Machine
end

