-- ==== Sys2Proof/Laws/State.lean ====
section
/-! SUPPORT. One lemma for each field of the state and each update of it, true by definition, so that no later proof
unfolds a record update. -/

namespace Sys2Proof.Machine

@[simp] theorem idle_build (s : State) : (idle s).build = s.build := rfl
@[simp] theorem idle_cfg (s : State) : (idle s).cfg = s.cfg := rfl
@[simp] theorem idle_cfgErr (s : State) : (idle s).cfgErr = s.cfgErr := rfl
@[simp] theorem idle_curve (s : State) : (idle s).curve = s.curve := rfl
@[simp] theorem idle_pos (s : State) : (idle s).pos = s.pos := rfl
@[simp] theorem idle_tsel (s : State) : (idle s).tsel = s.tsel := rfl
@[simp] theorem idle_out (s : State) : (idle s).out = s.out := rfl
@[simp] theorem idle_rsp (s : State) : (idle s).rsp = none := rfl
@[simp] theorem idle_outWe (s : State) : (idle s).outWe = false := rfl
@[simp] theorem idle_responses (s : State) : (idle s).responses = s.responses := rfl
@[simp] theorem idle_writeEvents (s : State) : (idle s).writeEvents = s.writeEvents := rfl
@[simp] theorem idle_inputs (s : State) : (idle s).inputs = s.inputs := rfl

@[simp] theorem respond_build (e : ErrorCode) (s : State) : (respond e s).build = s.build := rfl
@[simp] theorem respond_cfg (e : ErrorCode) (s : State) : (respond e s).cfg = s.cfg := rfl
@[simp] theorem respond_cfgErr (e : ErrorCode) (s : State) : (respond e s).cfgErr = s.cfgErr := rfl
@[simp] theorem respond_curve (e : ErrorCode) (s : State) : (respond e s).curve = s.curve := rfl
@[simp] theorem respond_pos (e : ErrorCode) (s : State) : (respond e s).pos = s.pos := rfl
@[simp] theorem respond_tsel (e : ErrorCode) (s : State) : (respond e s).tsel = s.tsel := rfl
@[simp] theorem respond_out (e : ErrorCode) (s : State) : (respond e s).out = s.out := rfl
@[simp] theorem respond_rsp (e : ErrorCode) (s : State) : (respond e s).rsp = some ⟨e, s.pos⟩ := rfl
@[simp] theorem respond_outWe (e : ErrorCode) (s : State) : (respond e s).outWe = s.outWe := rfl
@[simp] theorem respond_responses (e : ErrorCode) (s : State) : (respond e s).responses = s.responses ++ [⟨e, s.pos⟩] := rfl
@[simp] theorem respond_writeEvents (e : ErrorCode) (s : State) : (respond e s).writeEvents = s.writeEvents := rfl
@[simp] theorem respond_inputs (e : ErrorCode) (s : State) : (respond e s).inputs = s.inputs := rfl

@[simp] theorem raise_build (e : ErrorCode) (s : State) : (raise e s).build = s.build := rfl
@[simp] theorem raise_cfg (e : ErrorCode) (s : State) : (raise e s).cfg = s.cfg := rfl
@[simp] theorem raise_cfgErr (e : ErrorCode) (s : State) : (raise e s).cfgErr = s.cfgErr := rfl
@[simp] theorem raise_curve (e : ErrorCode) (s : State) : (raise e s).curve = s.curve := rfl
@[simp] theorem raise_pos (e : ErrorCode) (s : State) : (raise e s).pos = s.pos := rfl
@[simp] theorem raise_tsel (e : ErrorCode) (s : State) : (raise e s).tsel = s.tsel := rfl
@[simp] theorem raise_out (e : ErrorCode) (s : State) : (raise e s).out = s.out := rfl
@[simp] theorem raise_rsp (e : ErrorCode) (s : State) : (raise e s).rsp = some ⟨e, s.pos⟩ := rfl
@[simp] theorem raise_outWe (e : ErrorCode) (s : State) : (raise e s).outWe = false := rfl
@[simp] theorem raise_responses (e : ErrorCode) (s : State) : (raise e s).responses = s.responses ++ [⟨e, s.pos⟩] := rfl
@[simp] theorem raise_writeEvents (e : ErrorCode) (s : State) : (raise e s).writeEvents = s.writeEvents := rfl
@[simp] theorem raise_inputs (e : ErrorCode) (s : State) : (raise e s).inputs = s.inputs := rfl

@[simp] theorem writeOutputs_build (o : Outputs) (s : State) : (writeOutputs o s).build = s.build := rfl
@[simp] theorem writeOutputs_cfg (o : Outputs) (s : State) : (writeOutputs o s).cfg = s.cfg := rfl
@[simp] theorem writeOutputs_cfgErr (o : Outputs) (s : State) : (writeOutputs o s).cfgErr = s.cfgErr := rfl
@[simp] theorem writeOutputs_curve (o : Outputs) (s : State) : (writeOutputs o s).curve = s.curve := rfl
@[simp] theorem writeOutputs_pos (o : Outputs) (s : State) : (writeOutputs o s).pos = s.pos := rfl
@[simp] theorem writeOutputs_tsel (o : Outputs) (s : State) : (writeOutputs o s).tsel = s.tsel := rfl
@[simp] theorem writeOutputs_out (o : Outputs) (s : State) : (writeOutputs o s).out = o := rfl
@[simp] theorem writeOutputs_rsp (o : Outputs) (s : State) : (writeOutputs o s).rsp = s.rsp := rfl
@[simp] theorem writeOutputs_outWe (o : Outputs) (s : State) : (writeOutputs o s).outWe = true := rfl
@[simp] theorem writeOutputs_responses (o : Outputs) (s : State) : (writeOutputs o s).responses = s.responses := rfl
@[simp] theorem writeOutputs_writeEvents (o : Outputs) (s : State) : (writeOutputs o s).writeEvents = s.writeEvents ++ [o] := rfl
@[simp] theorem writeOutputs_inputs (o : Outputs) (s : State) : (writeOutputs o s).inputs = s.inputs := rfl

@[simp] theorem commitStep_build (p : Int) (ts : Option Table) (o : Outputs) (s : State) : (commitStep p ts o s).build = s.build := rfl
@[simp] theorem commitStep_cfg (p : Int) (ts : Option Table) (o : Outputs) (s : State) : (commitStep p ts o s).cfg = s.cfg := rfl
@[simp] theorem commitStep_cfgErr (p : Int) (ts : Option Table) (o : Outputs) (s : State) : (commitStep p ts o s).cfgErr = s.cfgErr := rfl
@[simp] theorem commitStep_curve (p : Int) (ts : Option Table) (o : Outputs) (s : State) : (commitStep p ts o s).curve = s.curve := rfl
@[simp] theorem commitStep_pos (p : Int) (ts : Option Table) (o : Outputs) (s : State) : (commitStep p ts o s).pos = p := rfl
@[simp] theorem commitStep_tsel (p : Int) (ts : Option Table) (o : Outputs) (s : State) : (commitStep p ts o s).tsel = ts := rfl
@[simp] theorem commitStep_out (p : Int) (ts : Option Table) (o : Outputs) (s : State) : (commitStep p ts o s).out = o := rfl
@[simp] theorem commitStep_rsp (p : Int) (ts : Option Table) (o : Outputs) (s : State) : (commitStep p ts o s).rsp = some ⟨.ok, p⟩ := rfl
@[simp] theorem commitStep_outWe (p : Int) (ts : Option Table) (o : Outputs) (s : State) : (commitStep p ts o s).outWe = true := rfl
@[simp] theorem commitStep_responses (p : Int) (ts : Option Table) (o : Outputs) (s : State) : (commitStep p ts o s).responses = s.responses ++ [⟨.ok, p⟩] := rfl
@[simp] theorem commitStep_writeEvents (p : Int) (ts : Option Table) (o : Outputs) (s : State) : (commitStep p ts o s).writeEvents = s.writeEvents ++ [o] := rfl
@[simp] theorem commitStep_inputs (p : Int) (ts : Option Table) (o : Outputs) (s : State) : (commitStep p ts o s).inputs = s.inputs := rfl

@[simp] theorem takeReset_build (st : Straps) (s : State) : (takeReset st s).build = s.build := rfl
@[simp] theorem takeReset_cfg (st : Straps) (s : State) : (takeReset st s).cfg = latchStraps s.build st := rfl
@[simp] theorem takeReset_cfgErr (st : Straps) (s : State) : (takeReset st s).cfgErr = !configValid s.build (latchStraps s.build st) := rfl
@[simp] theorem takeReset_curve (st : Straps) (s : State) : (takeReset st s).curve = curveFor s.build (latchStraps s.build st) := rfl
@[simp] theorem takeReset_pos (st : Straps) (s : State) : (takeReset st s).pos = 0 := rfl
@[simp] theorem takeReset_tsel (st : Straps) (s : State) : (takeReset st s).tsel = none := rfl
@[simp] theorem takeReset_out (st : Straps) (s : State) : (takeReset st s).out = Outputs.off st.analog := rfl
@[simp] theorem takeReset_rsp (st : Straps) (s : State) : (takeReset st s).rsp = none := rfl
@[simp] theorem takeReset_outWe (st : Straps) (s : State) : (takeReset st s).outWe = false := rfl
@[simp] theorem takeReset_responses (st : Straps) (s : State) : (takeReset st s).responses = s.responses := rfl
@[simp] theorem takeReset_writeEvents (st : Straps) (s : State) : (takeReset st s).writeEvents = s.writeEvents := rfl
@[simp] theorem takeReset_inputs (st : Straps) (s : State) : (takeReset st s).inputs = s.inputs := rfl

/-- The machine's error entry is what the statements call it. -/
theorem raise_eq_afterError (e : ErrorCode) (s : State) : raise e s = afterError s e := rfl

/-- The machine's commit is what the statements call it. -/
theorem commitStep_eq_afterSuccess (p : Int) (ts : Option Table) (o : Outputs) (s : State) :
    commitStep p ts o s = afterSuccess s p ts o := rfl

/-- RELEASE's commit is what the statements call it. -/
theorem respond_writeOutputs_eq_afterSuccess (o : Outputs) (s : State) :
    respond .ok (writeOutputs o s) = afterSuccess s s.pos s.tsel o := rfl

end Sys2Proof.Machine
end

