-- ==== Sys2Proof/Laws/Operands.lean ====
section
/-! SUPPORT. The small lemmas of the number functions: groups of four, indices, half steps, the curve table's shape, the
energizer against the coil-by-coil excitation of the statements. There is no byte memory on this hardware, so there is no
memory lemma; the three index spaces of 20_memory.md R35 take its place here. -/

namespace Sys2Proof.Machine

@[simp] theorem quad_get_ofFn {α : Type} (f : Fin 4 → α) (k : Fin 4) : (Quad.ofFn f).get k = f k := by
  fin_cases k <;> rfl

theorem quad_ext {α : Type} {q r : Quad α} (h : ∀ k, q.get k = r.get k) : q = r := by
  cases q
  cases r
  have h0 := h 0
  have h1 := h 1
  have h2 := h 2
  have h3 := h 3
  simp only [Quad.get] at h0 h1 h2 h3
  subst h0 h1 h2 h3
  rfl

/-- The index is the non-negative remainder (R38). -/
theorem wrapIndex_val (n : Nat) [NeZero n] (p : Int) : ((wrapIndex n p).val : Int) = p % (n : Int) := by
  have hn : (0 : Int) < n := by exact_mod_cast Nat.pos_of_ne_zero (NeZero.ne n)
  have h0 := Int.emod_nonneg p (ne_of_gt hn)
  have h1 := Int.emod_lt_of_pos p hn
  have hlt : (p % (n : Int)).toNat < n := by omega
  simp only [wrapIndex, fmod, Fin.ofNat, Nat.mod_eq_of_lt hlt]
  omega

theorem trailing_val (m : Nat) (p : Int) : ((trailing m p).val : Int) = p / (m : Int) % 4 := by
  simpa [trailing, fdiv] using wrapIndex_val 4 (p / (m : Int))

theorem leading_val (m : Nat) (p : Int) : ((leading m p).val : Int) = (p / (m : Int) % 4 + 1) % 4 := by
  have h := trailing_val m p
  have h2 : (leading m p).val = ((trailing m p).val + 1) % 4 := by
    simp [leading, Fin.val_add]
  omega

/-- The pair never collides (R90). -/
theorem leading_ne_trailing (m : Nat) (p : Int) : leading m p ≠ trailing m p := by
  intro h
  have h1 := trailing_val m p
  have h2 := leading_val m p
  rw [h] at h2
  omega

theorem half_pos {m : Nat} (h : LegalCount m) : 1 ≤ half m := by
  obtain ⟨h2, -⟩ := h
  simp only [half]
  omega

/-- `M` is two half steps (R71: "an integer, because `M` is even"). -/
theorem two_mul_half {m : Nat} (h : LegalCount m) : 2 * half m = (m : Int) := by
  obtain ⟨-, h0⟩ := h
  simp only [half]
  omega

@[simp] theorem curveTable_length (m : Nat) : (curveTable m).length = m + 1 := by simp [curveTable]

theorem curveTable_get {m i : Nat} (h : i ≤ m) :
    (curveTable m)[i]? = some (BitVec.ofNat 16 (curveEntry m i)) := by
  simp [curveTable, List.getElem?_range (Nat.lt_succ_of_le h)]

/-- A curve of `m + 1` entries has the entry at the phase (R38). -/
theorem curveRead_phase {curve : List U16} {m : Nat} (hm : 0 < m) (hl : curve.length = m + 1) (p : Int) :
    ∃ v, curve[(p % (m : Int)).toNat]? = some v ∧ curveRead curve (phase m p) = some v := by
  have hm' : (0 : Int) < m := by exact_mod_cast hm
  have h0 := Int.emod_nonneg p (ne_of_gt hm')
  have h1 := Int.emod_lt_of_pos p hm'
  have hlt : (p % (m : Int)).toNat < curve.length := by omega
  refine ⟨curve[(p % (m : Int)).toNat], List.getElem?_eq_getElem hlt, ?_⟩
  simp only [curveRead, phase, fmod, if_pos h0, List.getElem?_eq_getElem hlt]

/-- A curve of `m + 1` entries has the mirrored entry (R38). -/
theorem curveRead_mirror {curve : List U16} {m : Nat} (hm : 0 < m) (hl : curve.length = m + 1) (p : Int) :
    ∃ v, curve[((m : Int) - p % (m : Int)).toNat]? = some v ∧
      curveRead curve ((m : Int) - phase m p) = some v := by
  have hm' : (0 : Int) < m := by exact_mod_cast hm
  have h0 := Int.emod_nonneg p (ne_of_gt hm')
  have h1 := Int.emod_lt_of_pos p hm'
  have hn : (0 : Int) ≤ (m : Int) - p % (m : Int) := by omega
  have hlt : ((m : Int) - p % (m : Int)).toNat < curve.length := by omega
  refine ⟨curve[((m : Int) - p % (m : Int)).toNat], List.getElem?_eq_getElem hlt, ?_⟩
  simp only [curveRead, phase, fmod, if_pos hn, List.getElem?_eq_getElem hlt]

/-- What a curve read answers (R12). -/
theorem curveRead_eq_some {curve : List U16} {i : Int} {v : U16} (h : curveRead curve i = some v) :
    0 ≤ i ∧ curve[i.toNat]? = some v := by
  unfold curveRead at h
  split at h
  · exact ⟨‹_›, h⟩
  · cases h

/-- The analog energizer, if it answers, answers the excitation of R89 to R91. -/
theorem analogDuties_spec {curve : List U16} {m : Nat} {style : Style} {p : Int} {q : Quad U16}
    (h : analogDuties curve m style p = some q) :
    AnalogExcitation curve m (decide (style ≠ .microstep)) p q := by
  unfold analogDuties at h
  split at h
  · rename_i lead trail hl ht
    obtain ⟨-, hl'⟩ := curveRead_eq_some hl
    obtain ⟨-, ht'⟩ := curveRead_eq_some ht
    cases h
    refine ⟨lead, trail, hl', ht', fun k => ?_⟩
    have e1 : (k = leading m p) ↔ (k.val : Int) = (p / (m : Int) % 4 + 1) % 4 := by
      rw [← leading_val, Int.natCast_inj, Fin.ext_iff]
    have e2 : (k = trailing m p) ↔ (k.val : Int) = p / (m : Int) % 4 := by
      rw [← trailing_val, Int.natCast_inj, Fin.ext_iff]
    simp only [pairDuties, quad_get_ofFn, e1, e2, crossover, decide_eq_true_eq]
    split_ifs <;> rfl
  · cases h

/-- The analog energizer answers whenever the curve has `m + 1` entries (R38). -/
theorem analogDuties_isSome {curve : List U16} {m : Nat} (hm : 0 < m) (hl : curve.length = m + 1)
    (style : Style) (p : Int) : ∃ q, analogDuties curve m style p = some q := by
  obtain ⟨a, -, ha⟩ := curveRead_phase hm hl p
  obtain ⟨b, -, hb⟩ := curveRead_mirror hm hl p
  exact ⟨pairDuties m p (crossover style a b), by simp [analogDuties, ha, hb]⟩

/-- The digital energizer reads the entry of R87. -/
theorem patternAt_mem (b : Build) (t : Table) (p : Int) :
    (tableEntries b t)[(p % (tableLen t : Int)).toNat]? = some (patternAt b t p) := by
  have key : ∀ (n : Nat) [NeZero n] (v : Vector Pattern n),
      v.toList[(p % (n : Int)).toNat]? = some (v.get (wrapIndex n p)) := by
    intro n _ v
    have h := wrapIndex_val n p
    have hv : (p % (n : Int)).toNat = (wrapIndex n p).val := by omega
    have hlt := (wrapIndex n p).isLt
    rw [hv]
    simp [Vector.get]
  cases t
  · exact key 4 b.patSingle
  · exact key 4 b.patDouble
  · exact key 8 b.patInterleave

/-- The digital energizer answers the excitation of R87. -/
theorem energizeDigital_spec (b : Build) (t : Table) (p : Int) :
    DigitalExcitation b t p (patternLevels (patternAt b t p)) :=
  ⟨patternAt b t p, patternAt_mem b t p, fun k => by simp [patternLevels]⟩

end Sys2Proof.Machine
end

