-- ==== Sys2Proof/Laws/Ops.lean ====
section
/-! SUPPORT. What each shared operation and the step can do, said once: the later proofs cite these and do not unfold the
operations. -/

namespace Sys2Proof.Machine

/-- The ONESTEP constructors run the shared procedure at their own fields (R78 to R85). -/
theorem exec_onestep {i : Instr} {dir : Direction} {style : Style} (h : stepFields i = some (dir, style)) (s : State) :
    exec i s = onestep dir style s := by
  cases i <;> simp only [stepFields, Option.some.injEq, Prod.mk.injEq, reduceCtorEq] at h <;>
    (obtain ⟨rfl, rfl⟩ := h; rfl)

theorem exec_reserved {i : Instr} (h : isReserved i = true) (s : State) : exec i s = reservedCommand s := by
  cases i <;> first | rfl | simp [isReserved] at h

/-- Every command is an ONESTEP, RELEASE or reserved (R53). -/
theorem instr_kinds (i : Instr) :
    (∃ dir style, stepFields i = some (dir, style)) ∨ i = .release ∨ isReserved i = true := by
  cases i <;> simp [stepFields, isReserved]

@[simp] theorem stepFields_onestepOf (dir : Direction) (style : Style) :
    stepFields (onestepOf dir style) = some (dir, style) := by
  cases dir <;> cases style <;> rfl

/-- What the energizer of a mode writes at a position (R87, R90), as a relation: the new `TSEL` and the new `OUT`. -/
def Energized (s : State) (style : Style) (p : Int) (ts : Option Table) (o : Outputs) : Prop :=
  (s.cfg.analog = false ∧ ∃ t, tableOf style = some t ∧ ts = some t ∧ o = energizeDigital s.build t p) ∨
  (s.cfg.analog = true ∧ ts = s.tsel ∧ energizeAnalog s style p = some o)

/-- What ONESTEP answers with a next state: an error that changes nothing, or one commit (R67). -/
theorem onestep_next {dir : Direction} {style : Style} {s t : State} (h : onestep dir style s = .next t) :
    (∃ e, e ≠ .ok ∧ t = raise e s) ∨
    (s.cfgErr = false ∧ inRange s.build (computedPos s dir style) = true ∧
      ∃ ts o, Energized s style (computedPos s dir style) ts o ∧
        t = commitStep (computedPos s dir style) ts o s) := by
  unfold onestep at h
  split at h
  · cases h
    exact .inl ⟨_, by decide, rfl⟩
  · rename_i hc
    have hc' : s.cfgErr = false := by simpa using hc
    split at h
    · rename_i ha
      have hp : computedPos s dir style = move dir s.pos (stepSize s.cfg.m s.pos dir style) := by
        simp [computedPos, ha, nextPos]
      simp only [onestepAnalog] at h
      split at h
      · rename_i hr
        split at h
        · rename_i o ho
          cases h
          exact .inr ⟨hc', hp ▸ hr, s.tsel, o, .inr ⟨ha, rfl, hp ▸ ho⟩, by rw [hp]⟩
        · cases h
      · cases h
        exact .inl ⟨_, by decide, rfl⟩
    · rename_i ha
      have ha' : s.cfg.analog = false := by simpa using ha
      have hp : computedPos s dir style = move dir s.pos 1 := by simp [computedPos, ha']
      split at h
      · cases h
        exact .inl ⟨_, by decide, rfl⟩
      · rename_i tb htb
        simp only [onestepDigital] at h
        split at h
        · rename_i hr
          cases h
          exact .inr ⟨hc', hp ▸ hr, some tb, _, .inl ⟨ha', tb, htb, rfl, rfl⟩, by rw [hp]⟩
        · cases h
          exact .inl ⟨_, by decide, rfl⟩

/-- What a command answers with a next state (R54, R67, R100): an error that changes nothing, the commit of an ONESTEP, or
the commit of RELEASE. -/
theorem exec_next {i : Instr} {s t : State} (h : exec i s = .next t) :
    (∃ e, e ≠ .ok ∧ t = raise e s) ∨
    (∃ dir style, stepFields i = some (dir, style) ∧ s.cfgErr = false ∧
      inRange s.build (computedPos s dir style) = true ∧
      ∃ ts o, Energized s style (computedPos s dir style) ts o ∧
        t = commitStep (computedPos s dir style) ts o s) ∨
    (i = .release ∧ s.cfgErr = false ∧ t = respond .ok (writeOutputs (Outputs.off s.cfg.analog) s)) := by
  rcases instr_kinds i with ⟨dir, style, hf⟩ | rfl | hr
  · rw [exec_onestep hf] at h
    rcases onestep_next h with he | ⟨hc, hr, hx⟩
    · exact .inl he
    · exact .inr (.inl ⟨dir, style, hf, hc, hr, hx⟩)
  · simp only [exec, execRelease] at h
    split at h
    · cases h
      exact .inl ⟨_, by decide, rfl⟩
    · rename_i hc
      cases h
      exact .inr (.inr ⟨rfl, by simpa using hc, rfl⟩)
  · rw [exec_reserved hr] at h
    unfold reservedCommand at h
    split at h <;> cases h <;> exact .inl ⟨_, by decide, rfl⟩

/-- A host that presents nothing leaves the block idle. -/
theorem step_nil {s : State} (h : s.inputs = []) : step s = .next (idle s) := by
  simp [step, nextEvent, h]

/-- A transaction is a reset, a command or nothing, in this order (R118, R135). -/
theorem step_cons {s : State} {p : PortInputs} {rest : List PortInputs} (h : s.inputs = p :: rest) :
    step s = if p.rst then .next (takeReset p.straps { s with inputs := rest })
      else if p.cmdValid then exec (decode p.cmd) { s with inputs := rest }
      else .next (idle { s with inputs := rest }) := by
  obtain ⟨rst, straps, cmdValid, cmd⟩ := p
  cases rst <;> cases cmdValid <;> simp [step, nextEvent, h, portEvent, cmdReady]

/-- What a step does to the state behind the transaction it takes (R117, R118, R135). -/
theorem step_next {s t : State} (h : step s = .next t) :
    ∃ rest, (∃ st, t = takeReset st { s with inputs := rest }) ∨
      (∃ i, exec i { s with inputs := rest } = .next t) ∨ t = idle { s with inputs := rest } := by
  cases hi : s.inputs with
  | nil =>
    rw [step_nil hi] at h
    cases h
    exact ⟨[], .inr (.inr (by rw [← hi]))⟩
  | cons p rest =>
    rw [step_cons hi] at h
    refine ⟨rest, ?_⟩
    split at h
    · cases h
      exact .inl ⟨_, rfl⟩
    · split at h
      · exact .inr (.inl ⟨_, h⟩)
      · cases h
        exact .inr (.inr rfl)

/-- A state whose curve has `m + 1` entries has an excitation for every style and position. -/
theorem energizeAnalog_isSome {s : State} {curve : List U16} (hm : 0 < s.cfg.m) (hc : s.curve = some curve)
    (hl : curve.length = s.cfg.m + 1) (style : Style) (p : Int) :
    ∃ q, analogDuties curve s.cfg.m style p = some q ∧ energizeAnalog s style p = some (.duties q) := by
  obtain ⟨q, hq⟩ := analogDuties_isSome hm hl style p
  exact ⟨q, hq, by simp [energizeAnalog, hc, hq]⟩

/-- What the analog energizer answers. -/
theorem energizeAnalog_eq_some {s : State} {style : Style} {p : Int} {o : Outputs}
    (h : energizeAnalog s style p = some o) :
    ∃ curve q, s.curve = some curve ∧ analogDuties curve s.cfg.m style p = some q ∧ o = .duties q := by
  unfold energizeAnalog at h
  split at h
  · rename_i curve hc
    obtain ⟨q, hq, rfl⟩ := Option.map_eq_some_iff.1 h
    exact ⟨curve, q, hc, hq, rfl⟩
  · cases h

/-- The range of positions has no gap (R11). -/
theorem inRange_between {b : Build} {p q r : Int} (hp : inRange b p = true) (hr : inRange b r = true)
    (h1 : p ≤ q) (h2 : q ≤ r) : inRange b q = true := by
  cases hw : b.posW with
  | none => simp [inRange, hw]
  | some w =>
    simp only [inRange, hw, Bool.and_eq_true, decide_eq_true_eq] at *
    omega

/-- In an analog state with a valid configuration the count is legal and the curve is the table of R59. -/
theorem inv_analog {s : State} (h : s.Inv) (hc : s.cfgErr = false) (ha : s.cfg.analog = true) :
    LegalCount s.cfg.m ∧ s.curve = some (curveTable s.cfg.m) := by
  have hv : configValid s.build s.cfg = true := by
    have := h.cfgErr_eq
    rw [hc] at this
    simpa using this
  refine ⟨?_, by rw [h.curve_eq, curveFor, ha, hv]; rfl⟩
  rw [configValid, if_pos ha] at hv
  simp only [Bool.and_eq_true, decide_eq_true_eq, beq_iff_eq] at hv
  exact ⟨hv.1.1.1, hv.1.1.2⟩

end Sys2Proof.Machine
end

