-- ==== Sys2Proof/Laws/PerInstr.lean ====
section
/-! SUPPORT. The family EncodeRow, one lemma for each command: its word is its row of the opcode map, split into the fields
of its format (30_encoding.md R48 to R50). -/

namespace Sys2Proof.Laws.EncodeRow

/-- The word of a command has format bit 0 with the direction and style the command is named for, or format bit 1 and no
direction and style. -/
def Statement (i : Instr) : Prop :=
  match Sys2Proof.Machine.stepFields i with
  | some (dir, style) => fmtField (encode i) = false ∧ dirField (encode i) = dir ∧ styleField (encode i) = style
  | none => fmtField (encode i) = true

theorem onestepFSingle : Statement .onestepFSingle := ⟨rfl, rfl, rfl⟩

theorem onestepFDouble : Statement .onestepFDouble := ⟨rfl, rfl, rfl⟩

theorem onestepFInterleave : Statement .onestepFInterleave := ⟨rfl, rfl, rfl⟩

theorem onestepFMicrostep : Statement .onestepFMicrostep := ⟨rfl, rfl, rfl⟩

theorem onestepBSingle : Statement .onestepBSingle := ⟨rfl, rfl, rfl⟩

theorem onestepBDouble : Statement .onestepBDouble := ⟨rfl, rfl, rfl⟩

theorem onestepBInterleave : Statement .onestepBInterleave := ⟨rfl, rfl, rfl⟩

theorem onestepBMicrostep : Statement .onestepBMicrostep := ⟨rfl, rfl, rfl⟩

theorem release : Statement .release := rfl

theorem reserved1001 : Statement .reserved1001 := rfl

theorem reserved1010 : Statement .reserved1010 := rfl

theorem reserved1011 : Statement .reserved1011 := rfl

theorem reserved1100 : Statement .reserved1100 := rfl

theorem reserved1101 : Statement .reserved1101 := rfl

theorem reserved1110 : Statement .reserved1110 := rfl

theorem reserved1111 : Statement .reserved1111 := rfl

end Sys2Proof.Laws.EncodeRow
end

