-- ==== Sys2Proof/Tests/Slice0.lean ====
section
/-! SUPPORT. The model's own tests. Expected results are the spec's: the tables of 40_microstep_curve.md R66, the opcode map
of 30_encoding.md R53, and the vectors V21 to V61 of 95_test_vectors.md, each named at its test. Below them, a witness for
every statement that has hypotheses. -/

namespace Sys2Proof.Tests

open Sys2Proof Sys2Proof.Machine

/-! ### States to test on -/

/-- The state right after a reset with the given straps, moved to position `p`. -/
def startAt (analog : Bool) (m : Nat) (p : Int) : State :=
  { takeReset { analog := analog, m := m, freqOk := true } State.reset with pos := p }

/-- The same with an 8-bit position register (V53) and `M` = 16. -/
def narrowAt (analog : Bool) (p : Int) : State :=
  { takeReset { analog := analog, m := 16, freqOk := true }
      { State.reset with build := { defaultBuild with posW := some 8 } } with pos := p }

/-- A block reset with an odd microstep count (V51). -/
def badConfig : State := takeReset { analog := true, m := 15, freqOk := true } State.reset

/-- What a command leaves at the position, the outputs and the response. -/
def seen (i : Instr) (s : State) : Option (Int × Outputs × Option Response) :=
  (resultState (exec i s)).map (fun t => (t.pos, t.out, t.rsp))

/-- The next state of a command that has one. -/
def after (i : Instr) (s : State) : State := (resultState (exec i s)).getD s

/-! ### Well-formedness: each check refuses an ill-formed term -/

theorem test_default_build_wf : defaultBuild.wf = true := by decide

theorem test_narrow_counter_refused : ({ defaultBuild with posW := some 7 } : Build).posWOk = false := by decide

theorem test_odd_bound_refused : ({ defaultBuild with mMax := 511 } : Build).mMaxOk = false := by decide

theorem test_bound_wider_than_strap_refused : ({ defaultBuild with mMax := 1024 } : Build).mMaxOk = false := by decide

theorem test_two_coils_in_single_refused :
    ({ defaultBuild with patSingle := #v[0b0011#4, 0b0100#4, 0b0001#4, 0b1000#4] } : Build).singleOk = false := by decide

theorem test_repeated_single_refused :
    ({ defaultBuild with patSingle := #v[0b0010#4, 0b0010#4, 0b0001#4, 0b1000#4] } : Build).singleOk = false := by decide

theorem test_double_not_adjacent_refused :
    ({ defaultBuild with patDouble := #v[0b0110#4, 0b1010#4, 0b0101#4, 0b1001#4] } : Build).doubleOk = false := by decide

theorem test_interleave_single_first_refused :
    ({ defaultBuild with patInterleave :=
      #v[0b0010#4, 0b1010#4, 0b0100#4, 0b0110#4, 0b0001#4, 0b0101#4, 0b1000#4, 0b1001#4] } : Build).interleaveOk = false := by decide

theorem test_every_command_wf : Instr.onestepBMicrostep.wf = true ∧ Instr.reserved1111.wf = true := by decide

theorem test_microstep_not_legal_in_digital : Instr.onestepFMicrostep.legalIn false = false := by decide

theorem test_reserved_never_legal : Instr.reserved1100.legalIn true = false := by decide

/-! ### Decoding: words written out from the opcode map (R53) -/

theorem test_decode_onestepFSingle : decodeTableWord 8 0b0000 = some .onestepFSingle := by decide

theorem test_decode_onestepFDouble : decodeTableWord 8 0b0001 = some .onestepFDouble := by decide

theorem test_decode_onestepFInterleave : decodeTableWord 8 0b0010 = some .onestepFInterleave := by decide

theorem test_decode_onestepFMicrostep : decodeTableWord 8 0b0011 = some .onestepFMicrostep := by decide

theorem test_decode_onestepBSingle : decodeTableWord 8 0b0100 = some .onestepBSingle := by decide

theorem test_decode_onestepBDouble : decodeTableWord 8 0b0101 = some .onestepBDouble := by decide

theorem test_decode_onestepBInterleave : decodeTableWord 8 0b0110 = some .onestepBInterleave := by decide

theorem test_decode_onestepBMicrostep : decodeTableWord 8 0b0111 = some .onestepBMicrostep := by decide

theorem test_decode_release : decodeTableWord 8 0b1000 = some .release := by decide

theorem test_decode_reserved1001 : decodeTableWord 8 0b1001 = some .reserved1001 := by decide

theorem test_decode_reserved1010 : decodeTableWord 8 0b1010 = some .reserved1010 := by decide

theorem test_decode_reserved1011 : decodeTableWord 8 0b1011 = some .reserved1011 := by decide

theorem test_decode_reserved1100 : decodeTableWord 8 0b1100 = some .reserved1100 := by decide

theorem test_decode_reserved1101 : decodeTableWord 8 0b1101 = some .reserved1101 := by decide

theorem test_decode_reserved1110 : decodeTableWord 8 0b1110 = some .reserved1110 := by decide

theorem test_decode_reserved1111 : decodeTableWord 8 0b1111 = some .reserved1111 := by decide

theorem test_decode_refuses_a_fifth_bit : decodeNat 0b10000 = .error .notAFourBitWord := by rfl

/-! ### The Microstep Curve (R66, V1) -/

/-- The rounding boundary under 32768 is the sine at the tie of R60 (M = 6, entry 2), and the next one is above it. -/
theorem test_exact_comparison_at_the_tie :
    sineAtLeast 6 2 32768 = true ∧ sineAtLeast 6 2 32769 = false := by decide

/-- R66, `M` = 16, entry 1 is 6424. -/
theorem test_exact_comparison_off_the_tie :
    sineAtLeast 16 1 6424 = true ∧ sineAtLeast 16 1 6425 = false := by decide

theorem test_curve_2 : curveTable 2 = [0, 46340, 65535] := by decide

theorem test_curve_6 : curveTable 6 = [0, 16962, 32768, 46340, 56755, 63302, 65535] := by decide

theorem test_curve_10 :
    curveTable 10 = [0, 10252, 20251, 29752, 38521, 46340, 53019, 58392, 62327, 64728, 65535] := by decide

theorem test_curve_16 :
    curveTable 16 = [0, 6424, 12785, 19024, 25079, 30893, 36409, 41575, 46340, 50659, 54490, 57797, 60546, 62713,
      64276, 65219, 65535] := by decide

/-! ### The commands: analog vectors of V21 and V40, digital vectors of V30 to V36 and the rules' own examples -/

/-- V21: alignment onto the crossover, forced. -/
theorem test_onestepFSingle_analog :
    seen .onestepFSingle (startAt true 16 (-13)) = some (-8, .duties ⟨65535, 0, 0, 65535⟩, some ⟨.ok, -8⟩) := by decide

/-- V30. -/
theorem test_onestepFSingle_digital :
    seen .onestepFSingle (startAt false 0 3) = some (4, .levels ⟨false, true, false, false⟩, some ⟨.ok, 4⟩) := by decide

/-- V21. -/
theorem test_onestepFDouble_analog :
    seen .onestepFDouble (startAt true 16 8) = some (24, .duties ⟨0, 65535, 65535, 0⟩, some ⟨.ok, 24⟩) := by decide

/-- V31. -/
theorem test_onestepFDouble_digital :
    seen .onestepFDouble (startAt false 0 1) = some (2, .levels ⟨true, false, true, false⟩, some ⟨.ok, 2⟩) := by decide

/-- V21. -/
theorem test_onestepFInterleave_analog :
    seen .onestepFInterleave (startAt true 16 17) = some (24, .duties ⟨0, 65535, 65535, 0⟩, some ⟨.ok, 24⟩) := by decide

/-- V32. -/
theorem test_onestepFInterleave_digital :
    seen .onestepFInterleave (startAt false 0 6) = some (7, .levels ⟨false, false, false, true⟩, some ⟨.ok, 7⟩) := by decide

/-- V21, the document's scenario. -/
theorem test_onestepFMicrostep_analog :
    seen .onestepFMicrostep (startAt true 16 16) = some (17, .duties ⟨0, 65219, 6424, 0⟩, some ⟨.ok, 17⟩) := by decide

/-- V35. -/
theorem test_onestepFMicrostep_digital :
    seen .onestepFMicrostep (startAt false 0 (-3)) = some (-3, Outputs.off false, some ⟨.invalidStyleError, -3⟩) := by decide

/-- V21: alignment down to the crossover. -/
theorem test_onestepBSingle_analog :
    seen .onestepBSingle (startAt true 16 13) = some (8, .duties ⟨65535, 65535, 0, 0⟩, some ⟨.ok, 8⟩) := by decide

/-- R82: index -1 mod 4 = 3. -/
theorem test_onestepBSingle_digital :
    seen .onestepBSingle (startAt false 0 0) = some (-1, .levels ⟨false, false, false, true⟩, some ⟨.ok, -1⟩) := by decide

/-- V21. -/
theorem test_onestepBDouble_analog :
    seen .onestepBDouble (startAt true 16 (-8)) = some (-24, .duties ⟨0, 0, 65535, 65535⟩, some ⟨.ok, -24⟩) := by decide

/-- R83. -/
theorem test_onestepBDouble_digital :
    seen .onestepBDouble (startAt false 0 6) = some (5, .levels ⟨false, true, true, false⟩, some ⟨.ok, 5⟩) := by decide

/-- V21. -/
theorem test_onestepBInterleave_analog :
    seen .onestepBInterleave (startAt true 16 (-3)) = some (-8, .duties ⟨65535, 0, 0, 65535⟩, some ⟨.ok, -8⟩) := by decide

/-- V33. -/
theorem test_onestepBInterleave_digital :
    seen .onestepBInterleave (startAt false 0 (-1)) = some (-2, .levels ⟨true, false, false, true⟩, some ⟨.ok, -2⟩) := by decide

/-- V21: crossing zero. -/
theorem test_onestepBMicrostep_analog :
    seen .onestepBMicrostep (startAt true 16 0) = some (-1, .duties ⟨65219, 0, 0, 6424⟩, some ⟨.ok, -1⟩) := by decide

/-- V35. -/
theorem test_onestepBMicrostep_digital :
    seen .onestepBMicrostep (startAt false 0 (-3)) = some (-3, Outputs.off false, some ⟨.invalidStyleError, -3⟩) := by decide

/-- V40: RELEASE after the document's scenario keeps the position. -/
theorem test_release_analog :
    seen .release (after .onestepFMicrostep (startAt true 16 16)) =
      some (17, .duties ⟨0, 0, 0, 0⟩, some ⟨.ok, 17⟩) := by decide

/-- V40: RELEASE leaves the table select. -/
theorem test_release_digital :
    (after .release (after .onestepFDouble (startAt false 0 5))).tsel = some .double ∧
    (after .release (after .onestepFDouble (startAt false 0 5))).out = .levels ⟨false, false, false, false⟩ := by decide

/-! ### Errors, reset and the port -/

/-- V50. -/
theorem test_reserved : seen .reserved1001 (startAt true 16 5) =
    some (5, Outputs.off true, some ⟨.illegalCommand, 5⟩) := by decide

/-- V52: ConfigurationError comes before IllegalCommand, and RELEASE is refused too. -/
theorem test_priority :
    (after .reserved1111 badConfig).rsp = some ⟨.configurationError, 0⟩ ∧
    (after .release badConfig).rsp = some ⟨.configurationError, 0⟩ := by decide

/-- V53: an 8-bit counter at 112 cannot take a step of 16. -/
theorem test_overflow :
    (after .onestepFSingle (narrowAt true 112)).rsp = some ⟨.positionOverflow, 112⟩ ∧
    (after .onestepFSingle (narrowAt true 111)).rsp = some ⟨.ok, 112⟩ := by decide

/-- V51. -/
theorem test_invalid_configurations :
    (takeReset ⟨true, 514, true⟩ State.reset).cfgErr = true ∧ (takeReset ⟨true, 16, false⟩ State.reset).cfgErr = true ∧
    (takeReset ⟨true, 512, true⟩ State.reset).cfgErr = false ∧ (takeReset ⟨false, 7, false⟩ State.reset).cfgErr = false := by decide

/-- V61: a reset through the port may change the mode. -/
theorem test_reset_step :
    (resultState (step { startAt true 16 40 with inputs := [⟨true, ⟨false, 0, false⟩, true, 0b0000#4⟩] })).map
      (fun t => (t.pos, t.cfg.analog, t.out, t.rsp)) = some (0, false, .levels ⟨false, false, false, false⟩, none) := by decide

/-- E8: the first command of the document's scenario, presented at the port right after reset. -/
theorem test_first_step : (resultState (step (State.reset.withFetchWord 8 0b0000))).map
      (fun t => (t.pos, pinValue t .bin1)) = some (16, .duty 65535) := by decide

/-- V53, POSW = 32. -/
theorem test_default_range : inRange defaultBuild 2147483647 = true ∧ inRange defaultBuild 2147483648 = false ∧
    inRange defaultBuild (-2147483648) = true ∧ inRange defaultBuild (-2147483649) = false := by decide

/-- P1 step 2: the pins AIN1 AIN2 BIN1 BIN2 in analog mode. -/
theorem test_analog_pins :
    [Pin.ain1, .ain2, .bin1, .bin2].map (pinValue (after .onestepFMicrostep (startAt true 16 16))) =
      [.duty 6424, .duty 0, .duty 65219, .duty 0] := by decide

/-- The response port in bits (R37 (d), R105) and the bits of `TSEL` (R17), after one microstep back from 0 and after one
digital INTERLEAVE. -/
theorem test_port_bits :
    rspValid (after .onestepBMicrostep (startAt true 16 0)) = true ∧
    rspErr (after .onestepBMicrostep (startAt true 16 0)) = some 0b000#3 ∧
    rspPos (after .onestepBMicrostep (startAt true 16 0)) 32 = some 0xFFFFFFFF#32 ∧
    rspErr (after .onestepFMicrostep (startAt false 0 0)) = some 0b010#3 ∧
    tselBits (after .onestepFInterleave (startAt false 0 0)).tsel = 3#2 ∧ cfgErrPin badConfig = true := by decide

/-- The power-on state is what a reset with its straps leaves (R118). -/
theorem test_reset_is_reset : takeReset defaultStraps State.reset = State.reset := by rfl

/-! ### Witnesses: the hypotheses of the statements can be met -/

/-- A state in analog mode that meets the invariant, at a position the 8-bit register just holds. -/
theorem inv_narrow_analog : (narrowAt true 127).Inv :=
  ⟨by decide, by decide, by decide, by decide, by decide, by decide, by decide, by decide⟩

/-- A state in digital mode that meets the invariant. -/
theorem inv_narrow_digital : (narrowAt false (-128)).Inv :=
  ⟨by decide, by decide, by decide, by decide, by decide, by decide, by decide, by decide⟩

/-- A state with an invalid configuration that meets the invariant. -/
theorem inv_bad_config : badConfig.Inv :=
  ⟨by decide, by decide, by decide, by decide, by decide, by decide, by decide, by decide⟩

theorem witness_ForwardSingleFollowsItsRule :
    badConfig.cfgErr = true ∧
    (DigitalReady (narrowAt false 126) ∧ inRange (narrowAt false 126).build 127 = true) ∧
    (DigitalReady (narrowAt false 127) ∧ inRange (narrowAt false 127).build 128 = false) ∧
    (AnalogReady (narrowAt true 111) (curveTable 16) ∧
      inRange (narrowAt true 111).build (nextPos 16 111 .forward .single) = true) ∧
    (AnalogReady (narrowAt true 112) (curveTable 16) ∧
      inRange (narrowAt true 112).build (nextPos 16 112 .forward .single) = false) := by decide

theorem witness_ForwardDoubleFollowsItsRule :
    badConfig.cfgErr = true ∧
    (DigitalReady (narrowAt false 126) ∧ inRange (narrowAt false 126).build 127 = true) ∧
    (DigitalReady (narrowAt false 127) ∧ inRange (narrowAt false 127).build 128 = false) ∧
    (AnalogReady (narrowAt true 112) (curveTable 16) ∧
      inRange (narrowAt true 112).build (nextPos 16 112 .forward .double) = true) ∧
    (AnalogReady (narrowAt true 120) (curveTable 16) ∧
      inRange (narrowAt true 120).build (nextPos 16 120 .forward .double) = false) := by decide

theorem witness_ForwardInterleaveFollowsItsRule :
    badConfig.cfgErr = true ∧
    (DigitalReady (narrowAt false 126) ∧ inRange (narrowAt false 126).build 127 = true) ∧
    (DigitalReady (narrowAt false 127) ∧ inRange (narrowAt false 127).build 128 = false) ∧
    (AnalogReady (narrowAt true 112) (curveTable 16) ∧
      inRange (narrowAt true 112).build (nextPos 16 112 .forward .interleave) = true) ∧
    (AnalogReady (narrowAt true 120) (curveTable 16) ∧
      inRange (narrowAt true 120).build (nextPos 16 120 .forward .interleave) = false) := by decide

theorem witness_ForwardMicrostepFollowsItsRule :
    badConfig.cfgErr = true ∧
    DigitalReady (narrowAt false 127) ∧
    (AnalogReady (narrowAt true 126) (curveTable 16) ∧
      inRange (narrowAt true 126).build (nextPos 16 126 .forward .microstep) = true) ∧
    (AnalogReady (narrowAt true 127) (curveTable 16) ∧
      inRange (narrowAt true 127).build (nextPos 16 127 .forward .microstep) = false) := by decide

theorem witness_BackwardSingleFollowsItsRule :
    badConfig.cfgErr = true ∧
    (DigitalReady (narrowAt false (-127)) ∧ inRange (narrowAt false (-127)).build (-128) = true) ∧
    (DigitalReady (narrowAt false (-128)) ∧ inRange (narrowAt false (-128)).build (-129) = false) ∧
    (AnalogReady (narrowAt true (-112)) (curveTable 16) ∧
      inRange (narrowAt true (-112)).build (nextPos 16 (-112) .backward .single) = true) ∧
    (AnalogReady (narrowAt true (-128)) (curveTable 16) ∧
      inRange (narrowAt true (-128)).build (nextPos 16 (-128) .backward .single) = false) := by decide

theorem witness_BackwardDoubleFollowsItsRule :
    badConfig.cfgErr = true ∧
    (DigitalReady (narrowAt false (-127)) ∧ inRange (narrowAt false (-127)).build (-128) = true) ∧
    (DigitalReady (narrowAt false (-128)) ∧ inRange (narrowAt false (-128)).build (-129) = false) ∧
    (AnalogReady (narrowAt true (-112)) (curveTable 16) ∧
      inRange (narrowAt true (-112)).build (nextPos 16 (-112) .backward .double) = true) ∧
    (AnalogReady (narrowAt true (-128)) (curveTable 16) ∧
      inRange (narrowAt true (-128)).build (nextPos 16 (-128) .backward .double) = false) := by decide

theorem witness_BackwardInterleaveFollowsItsRule :
    badConfig.cfgErr = true ∧
    (DigitalReady (narrowAt false (-127)) ∧ inRange (narrowAt false (-127)).build (-128) = true) ∧
    (DigitalReady (narrowAt false (-128)) ∧ inRange (narrowAt false (-128)).build (-129) = false) ∧
    (AnalogReady (narrowAt true (-120)) (curveTable 16) ∧
      inRange (narrowAt true (-120)).build (nextPos 16 (-120) .backward .interleave) = true) ∧
    (AnalogReady (narrowAt true (-128)) (curveTable 16) ∧
      inRange (narrowAt true (-128)).build (nextPos 16 (-128) .backward .interleave) = false) := by decide

theorem witness_BackwardMicrostepFollowsItsRule :
    badConfig.cfgErr = true ∧
    DigitalReady (narrowAt false (-128)) ∧
    (AnalogReady (narrowAt true (-127)) (curveTable 16) ∧
      inRange (narrowAt true (-127)).build (nextPos 16 (-127) .backward .microstep) = true) ∧
    (AnalogReady (narrowAt true (-128)) (curveTable 16) ∧
      inRange (narrowAt true (-128)).build (nextPos 16 (-128) .backward .microstep) = false) := by decide

/-- The branches of the analog sizes at `M` = 16: misaligned at both ends, aligned at even and odd parity, below zero. -/
theorem witness_analog_size_branches :
    [(1 : Int), 7, 0, 8, -8, -1].map (fun p => (p % ((16 : Int) / 2), p / ((16 : Int) / 2) % 2)) =
      [(1, 0), (7, 0), (0, 0), (0, 1), (0, 1), (7, 1)] := by decide

theorem witness_DecodeAndEncodeAreInverse :
    4 ≤ 4 ∧ 4 ≤ 5 ∧ Instr.reserved1111.wf = true ∧ (15 < 16) ∧ (16 ≤ 16 ∧ 16 < 2 ^ 5) := by decide

theorem witness_StepRunsTheDecodedCommand :
    (State.reset.withFetchWord 8 15).inputs = [⟨false, State.reset.cfg, true, 0b1111#4⟩] := by decide

theorem witness_ResetSetsEveryRegister :
    ({ badConfig with inputs := [⟨true, ⟨true, 16, true⟩, true, 0b0000#4⟩] } : State).inputs =
      ⟨true, ⟨true, 16, true⟩, true, 0b0000#4⟩ :: [] ∧ 16 < 2 ^ badConfig.build.mW ∧ 1023 < 2 ^ badConfig.build.mW ∧
    (takeReset ⟨true, 16, true⟩ badConfig).cfgErr = false ∧ (takeReset ⟨true, 3, true⟩ badConfig).cfgErr = true := by decide

theorem witness_ResetKeepsTheRecords :
    ({ after .release State.reset with inputs := [⟨true, ⟨true, 1040, true⟩, false, 0b0000#4⟩] } : State).inputs =
      ⟨true, ⟨true, 1040, true⟩, false, 0b0000#4⟩ :: [] ∧
    (after .release State.reset).responses = [⟨.ok, 0⟩] := by decide

theorem witness_IdleBlockKeepsItsState :
    State.reset.inputs = [] ∧
    ({ State.reset with inputs := [⟨false, ⟨false, 0, false⟩, false, 0b1000#4⟩] } : State).inputs =
      [⟨false, ⟨false, 0, false⟩, false, 0b1000#4⟩] := by decide

theorem witness_InvalidConfigurationAnswersEveryCommand : badConfig.cfgErr = true := by decide

theorem witness_InvalidConfigurationLastsUntilReset :
    badConfig.cfgErr = true ∧ (∀ p rest, badConfig.inputs = p :: rest → p.rst = false) :=
  ⟨by decide, fun _ _ h => nomatch h⟩

theorem witness_ReleaseTurnsAllCoilsOff :
    badConfig.cfgErr = true ∧ (narrowAt true 127).cfgErr = false ∧ (narrowAt false (-128)).cfgErr = false := by decide

theorem witness_ReleaseIsIdempotent : (after .onestepFMicrostep (startAt true 16 16)).cfgErr = false := by decide

theorem witness_SteppingResumesAfterRelease :
    (stepFields .onestepFMicrostep).isSome = true ∧
    exec .release (startAt true 16 17) = .next (after .release (startAt true 16 17)) ∧
    (after .release (startAt true 16 17)).rsp = some ⟨.ok, (after .release (startAt true 16 17)).pos⟩ ∧
    exec .onestepFMicrostep (startAt true 16 17) = .next (after .onestepFMicrostep (startAt true 16 17)) ∧
    (after .onestepFMicrostep (startAt true 16 17)).rsp =
      some ⟨.ok, (after .onestepFMicrostep (startAt true 16 17)).pos⟩ :=
  ⟨by decide, by rfl, by decide, by rfl, by decide⟩

theorem witness_ReservedWordsAnswerIllegalCommand :
    State.reset.cfgErr = false ∧ isReserved (decode 0b1001#4) = true ∧ isReserved (decode 0b1000#4) = false := by decide

theorem witness_ErrorsChangeNothing :
    exec .onestepFSingle (narrowAt true 112) = .next (after .onestepFSingle (narrowAt true 112)) ∧
    (after .onestepFSingle (narrowAt true 112)).rsp = some ⟨.positionOverflow, 112⟩ :=
  ⟨by rfl, by decide⟩

theorem witness_FirstApplicableErrorIsReported :
    (narrowAt true 127).Inv ∧ (narrowAt false (-128)).Inv ∧ badConfig.Inv :=
  ⟨inv_narrow_analog, inv_narrow_digital, inv_bad_config⟩

theorem witness_EveryCommandIsAnsweredOnce :
    (narrowAt true 127).Inv ∧ dueError .onestepFMicrostep (narrowAt true 127) = .positionOverflow ∧
    dueError .release (narrowAt true 127) = .ok :=
  ⟨inv_narrow_analog, by decide, by decide⟩

theorem witness_OneWriteEventPerSuccess :
    exec .release (narrowAt true 127) = .next (after .release (narrowAt true 127)) ∧
    (after .release (narrowAt true 127)).rsp = some ⟨.ok, 127⟩ ∧
    exec .onestepFMicrostep (narrowAt true 127) = .next (after .onestepFMicrostep (narrowAt true 127)) ∧
    (after .onestepFMicrostep (narrowAt true 127)).rsp = some ⟨.positionOverflow, 127⟩ :=
  ⟨by rfl, by decide, by rfl, by decide⟩

theorem witness_CommandsNeverTouchTheConfiguration :
    exec .onestepBDouble (startAt true 16 8) = .next (after .onestepBDouble (startAt true 16 8)) := by rfl

theorem witness_OnlySuccessfulStepsMovePosition :
    (narrowAt true 127).Inv ∧
    exec .onestepBMicrostep (narrowAt true 127) = .next (after .onestepBMicrostep (narrowAt true 127)) ∧
    (after .onestepBMicrostep (narrowAt true 127)).pos = 126 ∧
    (narrowAt false (-128)).Inv ∧
    exec .onestepFSingle (narrowAt false (-128)) = .next (after .onestepFSingle (narrowAt false (-128))) ∧
    (after .onestepFSingle (narrowAt false (-128))).pos = -127 :=
  ⟨inv_narrow_analog, by rfl, by decide, inv_narrow_digital, by rfl, by decide⟩

/-- A state with an unbounded counter (R7) far outside 32 bits. -/
def unboundedAt (p : Int) : State :=
  { startAt true 16 p with build := { defaultBuild with posW := none } }

theorem witness_UnboundedCounterNeverOverflows :
    (unboundedAt 2147483647).build.posW = none ∧
    exec .onestepFMicrostep (unboundedAt 2147483647) = .next (after .onestepFMicrostep (unboundedAt 2147483647)) ∧
    (after .onestepFMicrostep (unboundedAt 2147483647)).pos = 2147483648 ∧ defaultBuild.posW = some 32 :=
  ⟨by decide, by rfl, by decide, by decide⟩

theorem witness_StepSizeIsWithinOneFullStep : LegalCount 2 ∧ LegalCount 512 := by decide

theorem witness_StylesSettleOnTheirGrid :
    LegalCount 16 ∧ Settled 16 .single (-16) ∧ Settled 16 .double 8 ∧ Settled 16 .interleave 8 ∧ Settled 16 .microstep 5 ∧
    ((8 : Int) % (16 / 2) = 0 ∧ ¬ Settled 16 .single 8) ∧ ((0 : Int) % (16 / 2) = 0 ∧ ¬ Settled 16 .double 0) ∧
    (7 : Int) % (16 / 2) ≠ 0 := by
  refine ⟨by decide, ?_⟩
  simp [Settled]

theorem witness_AlignmentMoveSkipsNoDetent :
    LegalCount 16 ∧ Style.single ≠ .microstep ∧ (1 : Int) % (((16 : Nat) : Int) / 2) ≠ 0 ∧
    (-1 : Int) % (((16 : Nat) : Int) / 2) ≠ 0 := by decide

theorem witness_ForwardAndBackwardSizes :
    LegalCount 16 ∧ (8 : Int) % (((16 : Nat) : Int) / 2) = 0 ∧ (7 : Int) % (((16 : Nat) : Int) / 2) ≠ 0 := by decide

theorem witness_SmallestConfigurationNeverAligns : Settled 2 .single 2 ∧ ¬ Settled 2 .single 1 := by
  simp [Settled]

theorem witness_FullStepOfMicrosteps :
    (AnalogReady (narrowAt true 111) (curveTable 16) ∧ inRange (narrowAt true 111).build 111 = true ∧
      inRange (narrowAt true 111).build (111 + 16) = true) ∧
    (AnalogReady (narrowAt true (-112)) (curveTable 16) ∧ inRange (narrowAt true (-112)).build (-112) = true ∧
      inRange (narrowAt true (-112)).build (-112 - 16) = true) := by decide

theorem witness_SettledStepsAreUndone :
    AnalogReady (narrowAt true 80) (curveTable 16) ∧ Settled 16 .single 80 ∧
    inRange (narrowAt true 80).build 80 = true ∧ inRange (narrowAt true 80).build (80 + 2 * nominalSize 16 .single) = true :=
  ⟨by decide, by simp [Settled], by decide, by decide⟩

theorem witness_DigitalStepsAreUndone :
    DigitalReady (narrowAt false 124) ∧ Style.double ≠ .microstep ∧ inRange (narrowAt false 124).build 124 = true ∧
    inRange (narrowAt false 124).build (124 + 3) = true := by decide

theorem witness_DigitalCycleLengths : defaultBuild.wf = true := by decide

theorem witness_OverrideFiresOnlyAtTheCrossover : LegalCount 2048 ∧ 2048 ≤ 2048 ∧ LegalCount 2 := by decide

theorem witness_CrossoverDuties : LegalCount 16 ∧ (-8 : Int) % ((16 : Nat) : Int) = ((16 : Nat) : Int) / 2 := by decide

theorem witness_AnalogOutputShape : LegalCount 16 ∧ (16 : Int) % ((16 : Nat) : Int) = 0 ∧ (15 : Int) % ((16 : Nat) : Int) ≠ 0 := by
  decide

theorem witness_AnalogExcitationPeriod :
    0 < 1 ∧ (Style.single = .microstep ↔ Style.double = .microstep) ∧
    (Style.microstep = .microstep ↔ Style.microstep = .microstep) := by decide

theorem witness_BothModesRotateAlike : 0 < 1 := by decide

theorem witness_CurveFixedEntries : LegalCount 2 ∧ LegalCount 4096 := by decide

theorem witness_PinsCarryTheirCoil :
    (narrowAt false 0).cfg.analog = false ∧ (narrowAt true 0).cfg.analog = true := by decide

theorem witness_CurveIsTheRoundedSine : LegalCount 4096 ∧ 4095 ≤ 4096 ∧ LegalCount 6 ∧ 2 ≤ 6 := by decide

theorem witness_CurveIsMonotone : (LegalCount 402 ∧ 401 < 402) ∧ (LegalCount 404 ∧ 404 ≤ 404) ∧ LegalCount 4096 := by decide

theorem witness_MirroredEntriesDiffer : LegalCount 2048 ∧ 2048 ≤ 2048 := by decide

theorem witness_CurveSumProperty : LegalCount 516 ∧ 257 < 516 / 2 := by decide

theorem witness_StepKeepsTheInvariant :
    (narrowAt true 127).Inv ∧ step (narrowAt true 127) = .next (idle (narrowAt true 127)) :=
  ⟨inv_narrow_analog, rfl⟩

/-- A state in the middle of a run, with a command waiting at the port. -/
def midRun : State := (after .onestepFSingle (startAt true 16 0)).withFetchWord 8 0b0011

theorem witness_StepKeepsOutputsExcited :
    midRun.Excited ∧ (resultState (step midRun)).isSome = true := by
  refine ⟨.inr (.inr ⟨by decide, curveTable 16, true, ⟨0, 65535, 0, 0⟩, by decide, by decide, ?_⟩), by decide⟩
  exact analogDuties_spec (style := .single) (by decide)

theorem witness_StepKeepsTheRecords :
    midRun.Recorded ∧ (resultState (step midRun)).isSome = true := by
  refine ⟨⟨by decide, ?_, by decide⟩, by decide⟩
  intro r h
  have h' : r = ⟨.ok, 16⟩ := by
    have e : midRun.rsp = some ⟨.ok, 16⟩ := by decide
    rw [e] at h
    exact (Option.some.inj h).symm
  subst h'
  decide

theorem witness_NoStepStops : (narrowAt true 127).Inv := inv_narrow_analog

end Sys2Proof.Tests
end

section
/-! PROOFS. The family 00_scope.md: what no command changes (R8) and the range of the position counter (R7, R11). -/

namespace Sys2Proof.Machine

/-! ### The error code of a response -/

/-- While `CFG_ERR` is 1 nothing comes before ConfigurationError (R112). -/
theorem dueError_of_cfgErr {s : State} (hc : s.cfgErr = true) (i : Instr) : dueError i s = .configurationError := by
  simp [dueError, hc]

theorem dueError_of_isReserved {i : Instr} {s : State} (hc : s.cfgErr = false) (hr : isReserved i = true) :
    dueError i s = .illegalCommand := by
  simp [dueError, hc, hr]

/-- An ONESTEP is no reserved command (R53). -/
theorem isReserved_of_stepFields {i : Instr} {dir : Direction} {style : Style}
    (hf : stepFields i = some (dir, style)) : isReserved i = false := by
  revert hf
  cases i <;> simp [stepFields, isReserved]

theorem dueError_onestep {i : Instr} {dir : Direction} {style : Style} {s : State}
    (hf : stepFields i = some (dir, style)) (hc : s.cfgErr = false) :
    dueError i s = if s.cfg.analog = false ∧ style = .microstep then .invalidStyleError
      else if inRange s.build (computedPos s dir style) then .ok else .positionOverflow := by
  simp [dueError, hc, isReserved_of_stepFields hf, hf]

theorem tableOf_eq_none {style : Style} : tableOf style = none ↔ style = .microstep := by
  cases style <;> simp [tableOf]

/-- The analog branch answers by the range test alone (R67 step 5). -/
theorem onestepAnalog_rsp {dir : Direction} {style : Style} {s t : State} (ha : s.cfg.analog = true)
    (h : onestepAnalog dir style s = .next t) :
    t.rsp = some ⟨if inRange s.build (computedPos s dir style) then .ok else .positionOverflow, t.pos⟩ := by
  have hp : computedPos s dir style = move dir s.pos (stepSize s.cfg.m s.pos dir style) := by
    simp [computedPos, ha, nextPos]
  rw [hp]
  simp only [onestepAnalog] at h
  split at h
  case isTrue hr =>
    split at h <;> cases h
    simp [hr]
  case isFalse hr =>
    cases h
    simp [hr]

/-- The digital branch answers by the range test alone (R67 step 5, R69). -/
theorem onestepDigital_rsp {dir : Direction} {table : Table} {s t : State} (h : onestepDigital dir table s = .next t) :
    t.rsp = some ⟨if inRange s.build (move dir s.pos 1) then .ok else .positionOverflow, t.pos⟩ := by
  simp only [onestepDigital] at h
  split at h
  case isTrue hr =>
    cases h
    simp [hr]
  case isFalse hr =>
    cases h
    simp [hr]

/-- An ONESTEP answered with a next state carries the error due and the position after it (R52, R112). -/
theorem exec_onestep_rsp {i : Instr} {dir : Direction} {style : Style} {s t : State}
    (hf : stepFields i = some (dir, style)) (h : exec i s = .next t) : t.rsp = some ⟨dueError i s, t.pos⟩ := by
  rw [exec_onestep hf, onestep] at h
  split at h
  case isTrue hc =>
    cases h
    simp [dueError_of_cfgErr hc]
  case isFalse hc =>
    rw [dueError_onestep hf (by simpa using hc)]
    split at h
    case isTrue ha => simpa [ha] using onestepAnalog_rsp ha h
    case isFalse ha =>
      split at h
      case h_1 htable =>
        cases h
        simp [ha, tableOf_eq_none.1 htable]
      case h_2 table htable =>
        have hstyle : style ≠ .microstep := by
          rintro rfl
          cases htable
        simpa [computedPos, ha, hstyle] using onestepDigital_rsp h

/-- Every next state carries the error due and the position after the command (R52, R112); no invariant is needed. -/
theorem exec_rsp {i : Instr} {s t : State} (h : exec i s = .next t) : t.rsp = some ⟨dueError i s, t.pos⟩ := by
  rcases instr_kinds i with ⟨dir, style, hf⟩ | rfl | hr
  · exact exec_onestep_rsp hf h
  · simp only [exec, execRelease] at h
    split at h
    case isTrue hc =>
      cases h
      simp [dueError_of_cfgErr hc]
    case isFalse hc =>
      cases h
      simp [dueError, hc, isReserved, stepFields]
  · rw [exec_reserved hr, reservedCommand] at h
    split at h
    case isTrue hc =>
      cases h
      simp [dueError_of_cfgErr hc]
    case isFalse hc =>
      cases h
      simp [dueError_of_isReserved (by simpa using hc) hr]

/-! ### The range of the position counter -/

theorem inRange_of_unbounded {b : Build} (hw : b.posW = none) (p : Int) : inRange b p = true := by
  simp [inRange, hw]

theorem inRange_iff_of_width {b : Build} {w : Nat} (hw : b.posW = some w) (p : Int) :
    inRange b p = true ↔ -(2 ^ (w - 1)) ≤ p ∧ p ≤ 2 ^ (w - 1) - 1 := by
  simp [inRange, hw]

/-- PositionOverflow is due only for a position out of range (R75). -/
theorem exists_not_inRange_of_dueError {i : Instr} {s : State} (h : dueError i s = .positionOverflow) :
    ∃ p, inRange s.build p = false := by
  cases hc : s.cfgErr with
  | true => simp [dueError_of_cfgErr hc] at h
  | false =>
    rcases instr_kinds i with ⟨dir, style, hf⟩ | rfl | hr
    · refine ⟨computedPos s dir style, ?_⟩
      rw [dueError_onestep hf hc] at h
      split at h
      · cases h
      · simpa using h
    · simp [dueError, hc, isReserved, stepFields] at h
    · simp [dueError_of_isReserved hc hr] at h

theorem dueError_ne_positionOverflow {s : State} (hw : s.build.posW = none) (i : Instr) :
    dueError i s ≠ .positionOverflow := by
  intro h
  obtain ⟨p, hp⟩ := exists_not_inRange_of_dueError h
  simp [inRange_of_unbounded hw] at hp

/-! ### The statements -/

/-- Settles O29, by what a command can answer: an error, an ONESTEP's commit or RELEASE's commit, each of which writes
none of these fields. -/
theorem commandsNeverTouchTheConfiguration : Obligations.CommandsNeverTouchTheConfiguration := by
  intro i s t h
  rcases exec_next h with ⟨e, -, rfl⟩ | ⟨_, _, -, -, -, _, _, -, rfl⟩ | ⟨-, -, rfl⟩
  · simp
  · simp
  · simp

/-- Settles O31: the response carries the error due, which is PositionOverflow only for a position out of range. -/
theorem unboundedCounterNeverOverflows : Obligations.UnboundedCounterNeverOverflows := by
  refine ⟨fun i s t hw h p hp => ?_, fun b w p hw => inRange_iff_of_width hw p⟩
  rw [exec_rsp h] at hp
  simp [dueError_ne_positionOverflow hw i] at hp

end Sys2Proof.Machine
end

section
/-! PROOFS. The family 10_state.md: the command the host presents (R22), the latched configuration error (R21), how the
position moves (R15), and the pattern tables (R25 to R28). -/

namespace Sys2Proof.Machine

/-! ### The command the host presents -/

/-- The decoder reads a command back from its word (R53). -/
@[simp] theorem decode_encode (i : Instr) : decode (encode i) = i := by
  cases i <;> rfl

/-- Presenting a command's word puts the word itself at the port: it has no bit above bit 3 (R48). -/
theorem withFetchWord_encode (s : State) (i : Instr) :
    s.withFetchWord 8 (encode i).toNat = { s with inputs := presentCommand (encode i) s :: s.inputs } := by
  have hword : BitVec.ofNat 4 ((encode i).toNat % 2 ^ 8) = encode i := by
    rw [Nat.mod_eq_of_lt (by omega), BitVec.ofNat_toNat, BitVec.setWidth_eq]
  rw [State.withFetchWord, hword]

/-! ### An invalid configuration -/

/-- While `CFG_ERR` is 1 a command of any kind raises ConfigurationError (R107). -/
theorem exec_of_cfgErr {s : State} (hc : s.cfgErr = true) (i : Instr) :
    exec i s = .next (raise .configurationError s) := by
  rcases instr_kinds i with ⟨dir, style, hf⟩ | rfl | hr
  · rw [exec_onestep hf, onestep, if_pos hc]
  · rw [exec, execRelease, if_pos hc]
  · rw [exec_reserved hr, reservedCommand, if_pos hc]

theorem sameMachine_idle (s : State) : SameMachine s (idle s) := by simp [SameMachine]

theorem sameMachine_raise (e : ErrorCode) (s : State) : SameMachine s (raise e s) := by simp [SameMachine]

/-! ### How far an ONESTEP moves -/

/-- The alignment move of a misaligned position is shorter than a half step (R71). -/
theorem alignMove_bounds {m : Nat} {p : Int} (h : LegalCount m) (hmis : fmod p (half m) ≠ 0) (dir : Direction) :
    1 ≤ alignMove m p dir ∧ alignMove m p dir < half m := by
  have hpos : 0 < half m := half_pos h
  have h0 : 0 ≤ fmod p (half m) := Int.emod_nonneg p hpos.ne'
  have h1 : fmod p (half m) < half m := Int.emod_lt_of_pos p hpos
  cases dir <;> simp only [alignMove] <;> omega

/-- A size is between one microstep and a full step (R74). -/
theorem stepSize_bounds {m : Nat} (h : LegalCount m) (p : Int) (dir : Direction) (style : Style) :
    1 ≤ stepSize m p dir style ∧ stepSize m p dir style ≤ m := by
  have hpos := half_pos h
  have htwo := two_mul_half h
  unfold stepSize
  split
  · omega
  · split
    case isTrue hmis =>
      have hmove := alignMove_bounds h hmis dir
      omega
    case isFalse =>
      cases style with
      | single => dsimp only; split <;> omega
      | double => dsimp only; split <;> omega
      | interleave => dsimp only; omega
      | microstep => dsimp only; omega

/-- A move covers its size in either direction (R67 step 4). -/
theorem abs_move_sub (dir : Direction) (p size : Int) : |move dir p size - p| = |size| := by
  cases dir <;> simp [move]

theorem abs_computedPos_sub_of_digital {s : State} (ha : s.cfg.analog = false) (dir : Direction) (style : Style) :
    |computedPos s dir style - s.pos| = 1 := by
  simp [computedPos, ha, abs_move_sub]

theorem abs_computedPos_sub_of_analog {s : State} (ha : s.cfg.analog = true) (hm : LegalCount s.cfg.m)
    (dir : Direction) (style : Style) :
    1 ≤ |computedPos s dir style - s.pos| ∧ |computedPos s dir style - s.pos| ≤ s.cfg.m := by
  have hsize := stepSize_bounds hm s.pos dir style
  have hpos : 0 ≤ stepSize s.cfg.m s.pos dir style := by omega
  simpa [computedPos, ha, nextPos, abs_move_sub, abs_of_nonneg hpos] using hsize

/-- From a state that meets the invariant an ONESTEP computes another position, within the bounds of R74. -/
theorem computedPos_bounds {s : State} (hs : s.Inv) (hc : s.cfgErr = false) (dir : Direction) (style : Style) :
    computedPos s dir style ≠ s.pos ∧
      (s.cfg.analog = false → |computedPos s dir style - s.pos| ≤ 1) ∧
      (s.cfg.analog = true → |computedPos s dir style - s.pos| ≤ s.cfg.m) := by
  rw [← sub_ne_zero, ← abs_pos]
  cases ha : s.cfg.analog with
  | false => simp [abs_computedPos_sub_of_digital ha]
  | true =>
    obtain ⟨hm, -⟩ := inv_analog hs hc ha
    obtain ⟨hlow, hhigh⟩ := abs_computedPos_sub_of_analog ha hm dir style
    exact ⟨hlow, by simp, fun _ => hhigh⟩

/-! ### The pattern tables -/

/-- The four levels carry the whole pattern (R87). -/
theorem patternLevels_inj {x y : Pattern} : patternLevels x = patternLevels y ↔ x = y := by
  refine ⟨fun h => BitVec.eq_of_getLsbD_eq fun k hk => ?_, congrArg patternLevels⟩
  simpa only [patternLevels, quad_get_ofFn] using congrArg (Quad.get · ⟨k, hk⟩) h

theorem energizeDigital_inj {b : Build} {t : Table} {p q : Int} :
    energizeDigital b t p = energizeDigital b t q ↔ patternAt b t p = patternAt b t q := by
  simp [energizeDigital, patternLevels_inj]

theorem patternAt_mem_tableEntries (b : Build) (t : Table) (p : Int) : patternAt b t p ∈ tableEntries b t :=
  List.mem_of_getElem? (patternAt_mem b t p)

theorem tableEntries_length (b : Build) (t : Table) : (tableEntries b t).length = tableLen t := by
  cases t <;> simp [tableEntries, tableLen]

/-- The constraints a legal build puts on its tables (R26 to R28). -/
theorem tables_of_wf {b : Build} (hw : b.wf = true) :
    b.singleOk = true ∧ b.doubleOk = true ∧ b.interleaveOk = true := by
  simp only [Build.wf, Bool.and_eq_true] at hw
  obtain ⟨⟨⟨-, hsingle⟩, hdouble⟩, hinterleave⟩ := hw
  exact ⟨hsingle, hdouble, hinterleave⟩

/-- Each entry of SINGLE energizes one coil and none comes twice (R26). -/
theorem single_entries {b : Build} (hw : b.wf = true) :
    (∀ x ∈ tableEntries b .single, Pattern.count x = 1) ∧ (tableEntries b .single).Nodup := by
  obtain ⟨hsingle, -, -⟩ := tables_of_wf hw
  simp only [Build.singleOk, Bool.and_eq_true, List.all_eq_true, beq_iff_eq, decide_eq_true_eq] at hsingle
  exact hsingle

/-- Each entry of DOUBLE energizes two coils and none comes twice (R27). -/
theorem double_entries {b : Build} (hw : b.wf = true) :
    (∀ x ∈ tableEntries b .double, Pattern.count x = 2) ∧ (tableEntries b .double).Nodup := by
  obtain ⟨-, hdouble, -⟩ := tables_of_wf hw
  simp only [Build.doubleOk, Bool.and_eq_true, List.all_eq_true, beq_iff_eq, decide_eq_true_eq] at hdouble
  exact hdouble.1

theorem count_patternAt_single {b : Build} (hw : b.wf = true) (p : Int) : (patternAt b .single p).count = 1 :=
  (single_entries hw).1 _ (patternAt_mem_tableEntries b .single p)

theorem count_patternAt_double {b : Build} (hw : b.wf = true) (p : Int) : (patternAt b .double p).count = 2 :=
  (double_entries hw).1 _ (patternAt_mem_tableEntries b .double p)

/-- INTERLEAVE runs through the entries of DOUBLE and SINGLE in turn (R28). -/
theorem interleave_entries {b : Build} (hw : b.wf = true) (i : Fin 4) :
    (tableEntries b .interleave)[2 * i.val]? = some (b.patDouble.get i) ∧
      (tableEntries b .interleave)[2 * i.val + 1]? = some (b.patSingle.get i) := by
  obtain ⟨-, -, hinterleave⟩ := tables_of_wf hw
  simp only [Build.interleaveOk, beq_iff_eq] at hinterleave
  rw [tableEntries, hinterleave]
  fin_cases i <;> exact ⟨rfl, rfl⟩

/-- INTERLEAVE at a position is DOUBLE or SINGLE at half the position, by parity (R28). -/
theorem patternAt_interleave {b : Build} (hw : b.wf = true) (p : Int) :
    patternAt b .interleave p = if p % 2 = 0 then patternAt b .double (p / 2) else patternAt b .single (p / 2) := by
  obtain ⟨heven, hodd⟩ := interleave_entries hw (wrapIndex 4 (p / 2))
  have hindex := wrapIndex_val 4 (p / 2)
  have hentry := patternAt_mem b .interleave p
  simp only [tableLen] at hentry
  apply Option.some.inj
  rw [← hentry]
  split
  case isTrue hp =>
    rw [show (p % ((8 : Nat) : Int)).toNat = 2 * (wrapIndex 4 (p / 2)).val by omega]
    exact heven
  case isFalse hp =>
    rw [show (p % ((8 : Nat) : Int)).toNat = 2 * (wrapIndex 4 (p / 2)).val + 1 by omega]
    exact hodd

theorem count_patternAt_interleave {b : Build} (hw : b.wf = true) (p : Int) :
    (patternAt b .interleave p).count = if p % 2 = 0 then 2 else 1 := by
  rw [patternAt_interleave hw]
  split
  · exact count_patternAt_double hw _
  · exact count_patternAt_single hw _

/-- A table without repetition gives equal patterns at equal indices only (R88 (b)). -/
theorem patternAt_inj_of_nodup {b : Build} {t : Table} (hn : (tableEntries b t).Nodup) (p q : Int) :
    patternAt b t p = patternAt b t q ↔ p % (tableLen t : Int) = q % (tableLen t : Int) := by
  have hlen : (0 : Int) < tableLen t := by cases t <;> simp [tableLen]
  have hp := Int.emod_nonneg p hlen.ne'
  have hq := Int.emod_nonneg q hlen.ne'
  have hlt := Int.emod_lt_of_pos p hlen
  have hbound : (p % (tableLen t : Int)).toNat < (tableEntries b t).length := by
    rw [tableEntries_length]
    omega
  rw [← Option.some_inj, ← patternAt_mem, ← patternAt_mem, List.getElem?_inj hbound hn]
  omega

/-- A legal table repeats with its length and no sooner (R25, R88 (b)). INTERLEAVE comes down to the other two: its
parity shows in the number of coils. -/
theorem patternAt_inj {b : Build} (hw : b.wf = true) (t : Table) (p q : Int) :
    patternAt b t p = patternAt b t q ↔ p % (tableLen t : Int) = q % (tableLen t : Int) := by
  have hsingle := patternAt_inj_of_nodup (single_entries hw).2
  have hdouble := patternAt_inj_of_nodup (double_entries hw).2
  cases t with
  | single => exact hsingle p q
  | double => exact hdouble p q
  | interleave =>
    simp only [tableLen] at hsingle hdouble ⊢
    by_cases hpar : p % 2 = q % 2
    · rw [patternAt_interleave hw p, patternAt_interleave hw q, ← hpar]
      split
      · rw [hdouble]
        omega
      · rw [hsingle]
        omega
    · refine iff_of_false (fun h => ?_) (by omega)
      have hcount := congrArg Pattern.count h
      rw [count_patternAt_interleave hw, count_patternAt_interleave hw] at hcount
      split_ifs at hcount <;> omega

/-! ### The statements -/

/-- Settles O5: the presented transaction is taken first, and the decoder reads the command back from its word. -/
theorem presentedCommandRunsNext : Obligations.PresentedCommandRunsNext := by
  intro s i
  rw [withFetchWord_encode, step_cons rfl]
  simp [presentCommand]

/-- Settles O11: a step that is no reset is idle or runs a command, and with `CFG_ERR` = 1 every command is an error. -/
theorem invalidConfigurationLastsUntilReset : Obligations.InvalidConfigurationLastsUntilReset := by
  intro s hc hreset
  cases hi : s.inputs with
  | nil => exact ⟨idle s, step_nil hi, sameMachine_idle s, hc, rfl⟩
  | cons p rest =>
    let taken : State := { s with inputs := rest }
    rw [step_cons hi, hreset p rest hi, if_neg Bool.false_ne_true]
    split
    · exact ⟨raise .configurationError taken, exec_of_cfgErr (s := taken) hc _, sameMachine_raise _ taken, hc, rfl⟩
    · exact ⟨idle taken, rfl, sameMachine_idle taken, hc, rfl⟩

/-- Settles O30, by what a command can answer: an error and RELEASE keep the position, an ONESTEP's commit moves it to the
position computed, which is another one within a full step. -/
theorem onlySuccessfulStepsMovePosition : Obligations.OnlySuccessfulStepsMovePosition := by
  intro i s t hs h
  rcases exec_next h with ⟨e, he, rfl⟩ | ⟨dir, style, hf, hc, -, ts, o, -, rfl⟩ | ⟨rfl, -, rfl⟩
  · simp [he]
  · simpa [hf] using computedPos_bounds hs hc dir style
  · simp [stepFields]

/-- Settles O40: the levels carry the pattern, and a legal table repeats with its length and no sooner. -/
theorem digitalCycleLengths : Obligations.DigitalCycleLengths := by
  intro b t p q hw
  rw [energizeDigital_inj, patternAt_inj hw, Int.emod_eq_emod_iff_emod_sub_eq_zero]

/-- Settles O41, by the number of coils in the entries of each table. -/
theorem digitalStylesEnergizeOneOrTwoCoils : Obligations.DigitalStylesEnergizeOneOrTwoCoils := by
  intro b p hw
  exact ⟨count_patternAt_single hw p, count_patternAt_double hw p, count_patternAt_interleave hw p⟩

end Sys2Proof.Machine
end

section
/-! PROOFS. The family 20_memory.md: the write event of a command (R41), the records of responses and write events, and
the table reads that always succeed (R38). -/

namespace Sys2Proof.Machine

/-! ### The two ways a command ends -/

/-- A command ends in an error that changes nothing or in one commit with the response OK (R40, R106). -/
theorem exec_error_or_success {i : Instr} {s t : State} (h : exec i s = .next t) :
    (∃ e, e ≠ .ok ∧ t = raise e s) ∨ ∃ p ts o, t = afterSuccess s p ts o := by
  rcases exec_next h with herr | ⟨_, _, -, -, -, ts, o, -, rfl⟩ | ⟨-, -, rfl⟩
  · exact .inl herr
  · exact .inr ⟨_, ts, o, commitStep_eq_afterSuccess _ ts o s⟩
  · exact .inr ⟨s.pos, s.tsel, _, respond_writeOutputs_eq_afterSuccess _ s⟩

/-! ### The records -/

/-- A quiet port shows nothing, so only the count of the records is at stake. -/
theorem recorded_of_quiet {s : State} (hrsp : s.rsp = none) (hwe : s.outWe = false)
    (hcount : s.writeEvents.length = (s.responses.filter (fun r => r.err == .ok)).length) : s.Recorded :=
  ⟨hcount, by simp [hrsp], by simp [hwe]⟩

theorem recorded_idle {s : State} (h : s.Recorded) : (idle s).Recorded := recorded_of_quiet rfl rfl h.count

theorem recorded_takeReset {s : State} (h : s.Recorded) (st : Straps) : (takeReset st s).Recorded :=
  recorded_of_quiet rfl rfl h.count

/-- An error adds a response that is not OK and no write event (R106). -/
theorem recorded_raise {s : State} {e : ErrorCode} (h : s.Recorded) (he : e ≠ .ok) : (raise e s).Recorded where
  count := by simp [he, h.count]
  last := by simp
  write := by simp

/-- A success adds one response OK and one write event, and the port shows both (R41, R52). -/
theorem recorded_afterSuccess {s : State} (h : s.Recorded) (p : Int) (ts : Option Table) (o : Outputs) :
    (afterSuccess s p ts o).Recorded where
  count := by simp [afterSuccess, h.count]
  last := by simp [afterSuccess]
  write := by simp [afterSuccess]

theorem recorded_exec {i : Instr} {s t : State} (h : s.Recorded) (hexec : exec i s = .next t) : t.Recorded := by
  rcases exec_error_or_success hexec with ⟨e, he, rfl⟩ | ⟨p, ts, o, rfl⟩
  · exact recorded_raise h he
  · exact recorded_afterSuccess h p ts o

/-- What the host presents is no part of the records. -/
theorem recorded_withInputs {s : State} (h : s.Recorded) (rest : List PortInputs) :
    ({ s with inputs := rest } : State).Recorded :=
  ⟨h.count, h.last, h.write⟩

/-! ### No command stops -/

/-- What the host presents is no part of the invariant. -/
theorem inv_withInputs {s : State} (h : s.Inv) (rest : List PortInputs) : ({ s with inputs := rest } : State).Inv :=
  ⟨h.build_wf, h.latched, h.cfgErr_eq, h.curve_eq, h.pos_range, h.tsel_analog, h.out_shape, h.invalid_rest⟩

theorem onestepDigital_isNext (dir : Direction) (table : Table) (s : State) :
    ∃ t, onestepDigital dir table s = .next t := by
  simp only [onestepDigital]
  split
  · exact ⟨_, rfl⟩
  · exact ⟨_, rfl⟩

/-- With the curve table of `M` + 1 entries the energizer finds every entry it reads (R38). -/
theorem onestepAnalog_isNext {s : State} {curve : List U16} (hm : 0 < s.cfg.m) (hc : s.curve = some curve)
    (hl : curve.length = s.cfg.m + 1) (dir : Direction) (style : Style) :
    ∃ t, onestepAnalog dir style s = .next t := by
  obtain ⟨q, -, hq⟩ :=
    energizeAnalog_isSome hm hc hl style (move dir s.pos (stepSize s.cfg.m s.pos dir style))
  simp only [onestepAnalog, hq]
  split
  · exact ⟨_, rfl⟩
  · exact ⟨_, rfl⟩

/-- The invariant gives an analog state with a valid configuration its curve table; no other branch reads one. -/
theorem onestep_isNext {s : State} (h : s.Inv) (dir : Direction) (style : Style) :
    ∃ t, onestep dir style s = .next t := by
  rw [onestep]
  split
  case isTrue => exact ⟨_, rfl⟩
  case isFalse hc =>
    split
    case isTrue ha =>
      obtain ⟨hlegal, hcurve⟩ := inv_analog h (by simpa using hc) ha
      exact onestepAnalog_isNext (by omega) hcurve (curveTable_length _) dir style
    case isFalse =>
      split
      · exact ⟨_, rfl⟩
      · exact onestepDigital_isNext dir _ s

theorem execRelease_isNext (s : State) : ∃ t, execRelease s = .next t := by
  rw [execRelease]
  split
  · exact ⟨_, rfl⟩
  · exact ⟨_, rfl⟩

theorem reservedCommand_isNext (s : State) : ∃ t, reservedCommand s = .next t := by
  rw [reservedCommand]
  split
  · exact ⟨_, rfl⟩
  · exact ⟨_, rfl⟩

/-- From a state that meets the invariant every command is answered (R38, R136). -/
theorem exec_isNext {s : State} (h : s.Inv) (i : Instr) : ∃ t, exec i s = .next t := by
  rcases instr_kinds i with ⟨dir, style, hf⟩ | rfl | hr
  · rw [exec_onestep hf]
    exact onestep_isNext h dir style
  · exact execRelease_isNext s
  · rw [exec_reserved hr]
    exact reservedCommand_isNext s

/-! ### The statements -/

/-- Settles O56: the port goes quiet at a reset and in an idle step, and a command ends in an error or a success, each of
which adds to both records what it shows at the port. -/
theorem stepKeepsTheRecords : Obligations.StepKeepsTheRecords := by
  intro s t hs h
  obtain ⟨rest, hstep⟩ := step_next h
  have htaken := recorded_withInputs hs rest
  rcases hstep with ⟨st, rfl⟩ | ⟨i, hexec⟩ | rfl
  · exact recorded_takeReset htaken st
  · exact recorded_exec htaken hexec
  · exact recorded_idle htaken

/-- Settles O28: a command ends in an error, which writes nothing, or in one commit, which is one write event. -/
theorem oneWriteEventPerSuccess : Obligations.OneWriteEventPerSuccess := by
  refine ⟨fun i s t h => ?_, fun st s => ⟨rfl, rfl⟩⟩
  rcases exec_error_or_success h with ⟨e, he, rfl⟩ | ⟨p, ts, o, rfl⟩
  · simp [he]
  · simp [afterSuccess]

/-- Settles O57: a reset and an idle step always answer, and under the invariant every command does. -/
theorem noStepStops : Obligations.NoStepStops := by
  intro s hs
  cases hi : s.inputs with
  | nil => exact ⟨_, step_nil hi⟩
  | cons p rest =>
    rw [step_cons hi]
    split
    · exact ⟨_, rfl⟩
    · split
      · exact exec_isNext (inv_withInputs hs rest) _
      · exact ⟨_, rfl⟩

end Sys2Proof.Machine
end

section
/-! PROOFS. The family 30_encoding.md: the one response of a command (R52) and the reserved words (R54). -/

namespace Sys2Proof.Machine

/-! ### The reserved words -/

/-- With a valid configuration a reserved command raises IllegalCommand (R54). -/
theorem exec_of_isReserved {i : Instr} {s : State} (hc : s.cfgErr = false) (hr : isReserved i = true) :
    exec i s = .next (raise .illegalCommand s) := by
  rw [exec_reserved hr, reservedCommand, hc, if_neg Bool.false_ne_true]

/-- The reserved words are the last seven of the sixteen (R53). -/
theorem isReserved_decode_iff : ∀ w : CmdWord, isReserved (decode w) = true ↔ 0b1001#4 ≤ w := by decide

/-! ### The statements -/

/-- Settles O27: under the invariant every command is answered, by an error, an ONESTEP's commit or RELEASE's commit, each
of which adds one response with the position it leaves; only the ONESTEP's commit, which is OK, writes another position. -/
theorem everyCommandIsAnsweredOnce : Obligations.EveryCommandIsAnsweredOnce := by
  intro i s hs
  obtain ⟨t, h⟩ := exec_isNext hs i
  rcases exec_next h with ⟨e, -, rfl⟩ | ⟨dir, style, hf, -, -, ts, o, -, rfl⟩ | ⟨-, -, rfl⟩
  · exact ⟨_, e, h, rfl, rfl, fun _ => rfl, fun _ => rfl⟩
  · have hstep : i ≠ .release := by
      rintro rfl
      cases hf
    exact ⟨_, .ok, h, rfl, rfl, fun he => absurd rfl he, fun hi => absurd hi hstep⟩
  · exact ⟨_, .ok, h, rfl, rfl, fun _ => rfl, fun _ => rfl⟩

/-- Settles O23: the seven reserved commands answer alike, and the range of their words is checked word by word. -/
theorem reservedWordsAnswerIllegalCommand : Obligations.ReservedWordsAnswerIllegalCommand := by
  intro s hc
  have hillegal {i : Instr} (hr : isReserved i = true) : exec i s = .next (afterError s .illegalCommand) :=
    exec_of_isReserved hc hr
  exact ⟨hillegal rfl, hillegal rfl, hillegal rfl, hillegal rfl, hillegal rfl, hillegal rfl, hillegal rfl,
    isReserved_decode_iff⟩

end Sys2Proof.Machine
end

section
/-! PROOFS. The family 40_microstep_curve.md: the curve is the rounded real sine (R59, R60), its fixed entries (R61),
monotonicity (R62), the equality of mirrored entries (R63) and their sum (R64). After `curveEntry_eq_floor` the entries
are reasoned about through the real sine alone. -/

namespace Sys2Proof.Machine

/-! ### The entries are the rounded sine -/

/-- The sine of R59 at index `i` of the curve for `m`. -/
noncomputable def quarterSine (m i : Nat) : ℝ := Real.sin (Real.pi * i / (2 * m))

/-- The machine's computation (R59): the sum it rounds, before the division by `2 * fixOne`. -/
def roundingSum (m i : Nat) : Nat := 2 * 65535 * fixSin (fixPi * i / (2 * m)) + fixOne

/-- The rounded lower end of the interval the sine lies in. -/
def lowerEntry (m i : Nat) : Nat := (roundingSum m i - fixSlack) / (2 * fixOne)

/-- The rounded upper end of the interval the sine lies in. -/
def upperEntry (m i : Nat) : Nat := (roundingSum m i + fixSlack) / (2 * fixOne)

theorem curveEntry_of_tie {m i : Nat} (h : 3 * i = m) : curveEntry m i = 32768 := by
  simp [curveEntry, h]

theorem curveEntry_of_upper_eq_lower {m i : Nat} (h : 3 * i ≠ m) (hu : upperEntry m i = lowerEntry m i) :
    curveEntry m i = lowerEntry m i := by
  have hd : upperEntry m i - lowerEntry m i = 0 := by omega
  simp only [upperEntry, lowerEntry, roundingSum] at hd ⊢
  simp only [curveEntry, if_neg h, hd]

theorem curveEntry_of_upper_eq_succ {m i : Nat} (h : 3 * i ≠ m) (hu : upperEntry m i = lowerEntry m i + 1) :
    curveEntry m i = if sineAtLeast m i (upperEntry m i) then upperEntry m i else lowerEntry m i := by
  have hd : upperEntry m i - lowerEntry m i = 0 + 1 := by omega
  simp only [upperEntry, lowerEntry, roundingSum] at hd ⊢
  simp only [curveEntry, if_neg h, hd]
  rfl

/-- The two ends round to the same entry or to adjacent ones, because the interval is narrower than one count. -/
theorem upperEntry_eq_or_succ (m i : Nat) :
    upperEntry m i = lowerEntry m i ∨ upperEntry m i = lowerEntry m i + 1 := by
  simp only [upperEntry, lowerEntry, roundingSum, fixOne, fixSlack]
  omega

theorem fixOne_cast : (fixOne : ℝ) = 10 ^ 20 := by norm_num [fixOne]

theorem fixSlack_cast : (fixSlack : ℝ) = 10 ^ 8 := by norm_num [fixSlack]

/-- The slack covers the error of the fixed-point sine. -/
theorem roundingSum_close {m i : Nat} (hm : 0 < m) (hi : i ≤ m) :
    |(roundingSum m i : ℝ) - 2 * fixOne * (65535 * quarterSine m i + 1 / 2)| < fixSlack := by
  have h := fixSin_close hm hi
  simp only [roundingSum, quarterSine]
  push_cast
  rw [fixOne_cast, abs_le] at h
  rw [fixOne_cast, fixSlack_cast, abs_lt]
  constructor <;> linarith

theorem fixSlack_le_roundingSum (m i : Nat) : fixSlack ≤ roundingSum m i := by
  simp only [roundingSum, fixOne, fixSlack]
  omega

/-- The rounded lower end is at most the rounded sine. -/
theorem lowerEntry_le {m i : Nat} (hm : 0 < m) (hi : i ≤ m) :
    (lowerEntry m i : ℝ) ≤ 65535 * quarterSine m i + 1 / 2 := by
  have hclose := (abs_lt.1 (roundingSum_close hm hi)).2
  obtain ⟨-, hdiv⟩ := natDiv_bounds (roundingSum m i - fixSlack) (2 * fixOne) (by norm_num [fixOne])
  rw [Nat.cast_sub (fixSlack_le_roundingSum m i)] at hdiv
  refine hdiv.trans ?_
  rw [div_le_iff₀ (by norm_num [fixOne])]
  push_cast
  linarith

/-- The rounded sine is at most the rounded upper end. -/
theorem lt_upperEntry_add_one {m i : Nat} (hm : 0 < m) (hi : i ≤ m) :
    65535 * quarterSine m i + 1 / 2 < (upperEntry m i : ℝ) + 1 := by
  have hclose := (abs_lt.1 (roundingSum_close hm hi)).1
  obtain ⟨hdiv, -⟩ := natDiv_bounds (roundingSum m i + fixSlack) (2 * fixOne) (by norm_num [fixOne])
  rw [sub_le_iff_le_add] at hdiv
  refine lt_of_lt_of_le ?_ hdiv
  rw [lt_div_iff₀ (by norm_num [fixOne])]
  push_cast
  linarith

theorem quarterSine_le_one (m i : Nat) : quarterSine m i ≤ 1 := Real.sin_le_one _

/-- No end rounds above the largest duty. -/
theorem upperEntry_le {m i : Nat} (hm : 0 < m) (hi : i ≤ m) : upperEntry m i ≤ 65535 := by
  have hclose := (abs_lt.1 (roundingSum_close hm hi)).2
  have hle := quarterSine_le_one m i
  have hsum : (roundingSum m i : ℝ) + fixSlack < 2 * fixOne * 65536 := by
    rw [fixOne_cast, fixSlack_cast] at hclose ⊢
    linarith
  have hsum' : roundingSum m i + fixSlack < 65536 * (2 * fixOne) := by
    rw [mul_comm]
    exact_mod_cast hsum
  exact Nat.lt_succ_iff.1 (Nat.div_lt_of_lt_mul (by rwa [mul_comm] at hsum'))

/-- At the one tie of R60 the sine is one half. -/
theorem quarterSine_of_tie {m i : Nat} (hm : 0 < m) (h : 3 * i = m) : quarterSine m i = 1 / 2 := by
  have hi : (i : ℝ) ≠ 0 := by
    have : i ≠ 0 := by omega
    exact_mod_cast this
  rw [quarterSine, ← Real.sin_pi_div_six, ← h]
  congr 1
  push_cast
  field_simp
  norm_num

/-- An entry of the curve is R59's real sine rounded to the nearest integer, with a tie going up. -/
theorem curveEntry_eq_floor {m i : Nat} (hm : LegalCount m) (hi : i ≤ m) :
    (curveEntry m i : Int) = ⌊65535 * quarterSine m i + 1 / 2⌋ := by
  obtain ⟨hm2, heven⟩ := hm
  have hm0 : 0 < m := by omega
  have hlow := lowerEntry_le hm0 hi
  have hhigh := lt_upperEntry_add_one hm0 hi
  symm
  rw [Int.floor_eq_iff]
  by_cases htie : 3 * i = m
  · rw [curveEntry_of_tie htie, quarterSine_of_tie hm0 htie]
    norm_num
  rcases upperEntry_eq_or_succ m i with hu | hu
  · rw [curveEntry_of_upper_eq_lower htie hu]
    rw [hu] at hhigh
    exact ⟨hlow, hhigh⟩
  · have hdecide := sineAtLeast_iff hm0 heven hi (n := upperEntry m i) (by omega) (upperEntry_le hm0 hi)
    rw [← quarterSine, div_le_iff₀ (by norm_num)] at hdecide
    rw [curveEntry_of_upper_eq_succ htie hu]
    have hcast : (upperEntry m i : ℝ) = lowerEntry m i + 1 := by exact_mod_cast hu
    split_ifs with hs
    · rw [hdecide] at hs
      push_cast
      constructor <;> linarith
    · rw [hdecide] at hs
      push_cast
      constructor <;> linarith

/-- What the rounding of an entry leaves open: at most half a count either way. -/
theorem curveEntry_bounds {m i : Nat} (hm : LegalCount m) (hi : i ≤ m) :
    (curveEntry m i : ℝ) ≤ 65535 * quarterSine m i + 1 / 2 ∧
    65535 * quarterSine m i + 1 / 2 < (curveEntry m i : ℝ) + 1 := by
  simpa using Int.floor_eq_iff.1 (curveEntry_eq_floor hm hi).symm

/-- An entry is the number whose two rounding boundaries enclose the sine. -/
theorem curveEntry_eq_of_bounds {m i n : Nat} (hm : LegalCount m) (hi : i ≤ m)
    (hlow : (n : ℝ) ≤ 65535 * quarterSine m i + 1 / 2) (hhigh : 65535 * quarterSine m i + 1 / 2 < (n : ℝ) + 1) :
    curveEntry m i = n := by
  have h : (curveEntry m i : Int) = n := by
    rw [curveEntry_eq_floor hm hi, Int.floor_eq_iff]
    exact ⟨by simpa using hlow, by simpa using hhigh⟩
  exact_mod_cast h

theorem curveEntry_le {m i : Nat} (hm : LegalCount m) (hi : i ≤ m) : curveEntry m i ≤ 65535 := by
  obtain ⟨hround, -⟩ := curveEntry_bounds hm hi
  have hle := quarterSine_le_one m i
  have h : (curveEntry m i : ℝ) < 65536 := by linarith
  have h' : curveEntry m i < 65536 := by exact_mod_cast h
  omega

/-! ### The sine in half microsteps

`halfAngle m` is half a microstep, so index `i` stands for `2 * i` of it and the whole quarter for `2 * m`. -/

noncomputable def halfAngle (m : Nat) : ℝ := Real.pi / (4 * m)

theorem halfAngle_pos {m : Nat} (hm : 0 < m) : 0 < halfAngle m := by
  have : (0 : ℝ) < m := by exact_mod_cast hm
  have := Real.pi_pos
  simp only [halfAngle]
  positivity

theorem two_mul_halfAngle {m : Nat} (hm : 0 < m) : 2 * m * halfAngle m = Real.pi / 2 := by
  have : (0 : ℝ) < m := by exact_mod_cast hm
  simp only [halfAngle]
  field_simp
  norm_num

theorem quarterSine_eq (m i : Nat) : quarterSine m i = Real.sin (2 * i * halfAngle m) := by
  rw [quarterSine, halfAngle]
  congr 1
  ring

theorem halfAngle_anti {m n : Nat} (hm : 0 < m) (h : m ≤ n) : halfAngle n ≤ halfAngle m := by
  have := Real.pi_pos
  have : (0 : ℝ) < m := by exact_mod_cast hm
  have : (m : ℝ) ≤ n := by exact_mod_cast h
  simp only [halfAngle]
  gcongr

theorem quarterSine_zero (m : Nat) : quarterSine m 0 = 0 := by simp [quarterSine]

theorem quarterSine_last {m : Nat} (hm : 0 < m) : quarterSine m m = 1 := by
  rw [quarterSine_eq, two_mul_halfAngle hm, Real.sin_pi_div_two]

theorem quarterSine_middle {m : Nat} (hm : LegalCount m) : quarterSine m (m / 2) = √2 / 2 := by
  obtain ⟨hm2, heven⟩ := hm
  have hhalf : (2 : ℝ) * (m / 2 : Nat) = m := by exact_mod_cast Nat.mul_div_cancel' (Nat.dvd_of_mod_eq_zero heven)
  rw [quarterSine_eq, hhalf, ← Real.sin_pi_div_four]
  congr 1
  linarith [two_mul_halfAngle (show 0 < m by omega)]

/-- The sine does not fall along the quarter. -/
theorem sin_multiple_mono {m : Nat} (hm : 0 < m) {x y : ℝ} (hx : 0 ≤ x) (hxy : x ≤ y) (hy : y ≤ 2 * m) :
    Real.sin (x * halfAngle m) ≤ Real.sin (y * halfAngle m) := by
  have hpos := halfAngle_pos hm
  have hquarter := two_mul_halfAngle hm
  have hpi := Real.pi_pos
  have hx' : 0 ≤ x * halfAngle m := by positivity
  have hxy' : x * halfAngle m ≤ y * halfAngle m := by gcongr
  have hy' : y * halfAngle m ≤ 2 * m * halfAngle m := by gcongr
  exact Real.sin_le_sin_of_le_of_le_pi_div_two (by linarith) (by linarith) hxy'

theorem quarterSine_mono {m i j : Nat} (hm : 0 < m) (hij : i ≤ j) (hj : j ≤ m) :
    quarterSine m i ≤ quarterSine m j := by
  have hij' : (i : ℝ) ≤ j := by exact_mod_cast hij
  have hj' : (j : ℝ) ≤ m := by exact_mod_cast hj
  rw [quarterSine_eq, quarterSine_eq]
  exact sin_multiple_mono hm (by positivity) (by linarith) (by linarith)

/-- The cosine of a number of half microsteps is the sine of what is left of the quarter. -/
theorem cos_multiple {m : Nat} (hm : 0 < m) (x : ℝ) :
    Real.cos (x * halfAngle m) = Real.sin ((2 * m - x) * halfAngle m) := by
  rw [← Real.sin_pi_div_two_sub, ← two_mul_halfAngle hm]
  congr 1
  ring

/-- The rise of the sine from one index to the next. -/
theorem quarterSine_succ_sub {m : Nat} (hm : 0 < m) (i : Nat) :
    quarterSine m (i + 1) - quarterSine m i =
      2 * Real.sin (halfAngle m) * Real.sin ((2 * m - 2 * i - 1) * halfAngle m) := by
  rw [quarterSine_eq, quarterSine_eq, Real.sin_sub_sin]
  push_cast
  rw [show (2 * (i + 1) * halfAngle m - 2 * i * halfAngle m) / 2 = halfAngle m by ring,
    show (2 * (i + 1) * halfAngle m + 2 * i * halfAngle m) / 2 = (2 * i + 1) * halfAngle m by ring, cos_multiple hm,
    sub_add_eq_sub_sub]

/-- A lower bound of the sine, close for a small angle. -/
theorem sub_cube_lt_sin_of_lt {x y : ℝ} (hy : 0 < y) (hyx : y < x) (hx : x ≤ Real.pi / 2) :
    y - y ^ 3 / 6 < Real.sin x :=
  (Real.sin_gt_sub_cube hy).trans
    (Real.sin_lt_sin_of_lt_of_le_pi_div_two (by linarith [Real.pi_pos]) hx hyx)

/-- A lower bound of the sine of a few half microsteps, for every `m` up to the `n` that `y` was chosen for. -/
theorem sub_cube_lt_sin_multiple {m n : Nat} {x y : ℝ} (hm : 0 < m) (hmn : m ≤ n) (hx : 0 < x) (hxm : x ≤ 2 * m)
    (hy : 0 < y) (hyx : 4 * n * y < 3.14159 * x) : y - y ^ 3 / 6 < Real.sin (x * halfAngle m) := by
  have hpi := Real.pi_gt_d6
  have hn0 : (0 : ℝ) < n := by exact_mod_cast hm.trans_le hmn
  refine sub_cube_lt_sin_of_lt hy ?_ ?_
  · calc y < x * halfAngle n := by
          rw [halfAngle, mul_div_assoc', lt_div_iff₀ (by positivity)]
          nlinarith
      _ ≤ x * halfAngle m := by
          have := halfAngle_anti hm hmn
          gcongr
  · rw [← two_mul_halfAngle hm]
    have := halfAngle_pos hm
    gcongr

/-! ### Comparing entries -/

theorem curveEntry_mono {m i j : Nat} (hm : LegalCount m) (hij : i ≤ j) (hj : j ≤ m) :
    curveEntry m i ≤ curveEntry m j := by
  have hm0 : 0 < m := by omega
  have h : (curveEntry m i : Int) ≤ curveEntry m j := by
    rw [curveEntry_eq_floor hm (hij.trans hj), curveEntry_eq_floor hm hj]
    have := quarterSine_mono hm0 hij hj
    gcongr
  exact_mod_cast h

/-- Where the product of R59 rises by a whole count, so does the entry. -/
theorem curveEntry_lt_of_rise {m i j : Nat} (hm : LegalCount m) (hi : i ≤ m) (hj : j ≤ m)
    (hrise : 1 ≤ 65535 * (quarterSine m j - quarterSine m i)) : curveEntry m i < curveEntry m j := by
  obtain ⟨hlow, -⟩ := curveEntry_bounds hm hi
  obtain ⟨-, hhigh⟩ := curveEntry_bounds hm hj
  have h : (curveEntry m i : ℝ) < curveEntry m j := by linarith
  exact_mod_cast h

theorem curveEntry_zero {m : Nat} (hm : LegalCount m) : curveEntry m 0 = 0 :=
  curveEntry_eq_of_bounds hm (by omega) (by rw [quarterSine_zero]; norm_num) (by rw [quarterSine_zero]; norm_num)

theorem curveEntry_last {m : Nat} (hm : LegalCount m) : curveEntry m m = 65535 := by
  have hlast := quarterSine_last (show 0 < m by omega)
  exact curveEntry_eq_of_bounds hm le_rfl (by rw [hlast]; norm_num) (by rw [hlast]; norm_num)

theorem lt_sqrt_two : 1.4142135 < √2 := Real.lt_sqrt_of_sq_lt (by norm_num)

theorem sqrt_two_lt : √2 < 1.41421357 := (Real.sqrt_lt' (by norm_num)).2 (by norm_num)

/-- The crossover entry (R61). -/
theorem curveEntry_middle {m : Nat} (hm : LegalCount m) : curveEntry m (m / 2) = 46340 := by
  have hmiddle := quarterSine_middle hm
  have := lt_sqrt_two
  have := sqrt_two_lt
  refine curveEntry_eq_of_bounds hm (by omega) ?_ ?_ <;>
  · rw [hmiddle]
    push_cast
    linarith

/-! ### The top of the curve (R62) -/

/-- The product of R59 misses the last entry by the square of the sine of half a microstep, at the index before it. -/
theorem quarterSine_pred_last {m : Nat} (hm : 0 < m) :
    quarterSine m (m - 1) = 1 - 2 * Real.sin (halfAngle m) ^ 2 := by
  have hcast : ((m - 1 : Nat) : ℝ) = m - 1 := by push_cast [Nat.cast_sub hm]; rfl
  have hrise := quarterSine_succ_sub hm (m - 1)
  rw [Nat.sub_add_cancel hm, quarterSine_last hm, hcast,
    show (2 * m - 2 * (m - 1 : ℝ) - 1) * halfAngle m = halfAngle m by ring] at hrise
  linarith

/-- Up to `M` = 402 half a microstep is large enough for the last entry to stand alone. -/
theorem lt_sin_halfAngle {m : Nat} (hm : 0 < m) (h : m ≤ 402) : 0.0019535 < Real.sin (halfAngle m) := by
  have hm1 : (1 : ℝ) ≤ m := by exact_mod_cast hm
  have hsin := sub_cube_lt_sin_multiple (x := 1) (y := 0.0019537) hm h (by norm_num) (by linarith) (by norm_num)
    (by norm_num)
  rw [one_mul] at hsin
  linarith

/-- Up to `M` = 402 the product rises by a whole count at every index but the last. -/
theorem curveEntry_lt_succ {m i : Nat} (hm : LegalCount m) (h : m ≤ 402) (hi : i + 1 < m) :
    curveEntry m i < curveEntry m (i + 1) := by
  have hm0 : 0 < m := by omega
  have hi' : (i : ℝ) + 1 + 1 ≤ m := by exact_mod_cast hi
  have hi0 : (0 : ℝ) ≤ i := i.cast_nonneg
  have hunit := lt_sin_halfAngle hm0 h
  have hslope := sub_cube_lt_sin_multiple (x := 2 * m - 2 * i - 1) (y := 0.005) hm0 h (by linarith) (by linarith)
    (by norm_num) (by norm_num; linarith)
  refine curveEntry_lt_of_rise hm (by omega) (by omega) ?_
  rw [quarterSine_succ_sub hm0]
  nlinarith

/-- Up to `M` = 402 the last entry stands alone. -/
theorem curveEntry_pred_last_lt {m : Nat} (hm : LegalCount m) (h : m ≤ 402) : curveEntry m (m - 1) < 65535 := by
  have hm0 : 0 < m := by omega
  have hunit := lt_sin_halfAngle hm0 h
  obtain ⟨hround, -⟩ := curveEntry_bounds hm (i := m - 1) (by omega)
  rw [quarterSine_pred_last hm0] at hround
  have hlt : (curveEntry m (m - 1) : ℝ) < 65535 := by nlinarith
  exact_mod_cast hlt

/-- From `M` = 404 on the entry before the last one rounds up to it. -/
theorem curveEntry_pred_last {m : Nat} (hm : LegalCount m) (h : 404 ≤ m) : curveEntry m (m - 1) = 65535 := by
  have hm0 : 0 < m := by omega
  have hpos := halfAngle_pos hm0
  have hangle : halfAngle m < 0.0019441 := by
    refine (halfAngle_anti (by norm_num) h).trans_lt ?_
    rw [halfAngle]
    norm_num
    linarith [Real.pi_lt_d6]
  have hsin0 : 0 ≤ Real.sin (halfAngle m) := Real.sin_nonneg_of_nonneg_of_le_pi hpos.le (by linarith [Real.pi_gt_three])
  have hsin := Real.sin_le hpos.le
  have hpred := quarterSine_pred_last hm0
  refine curveEntry_eq_of_bounds hm (by omega) ?_ ?_ <;>
  · rw [hpred]
    push_cast
    nlinarith

/-! ### Around the middle of the curve (R63, R64) -/

theorem count_mul_halfAngle {m : Nat} (hm : 0 < m) : m * halfAngle m = Real.pi / 4 := by
  linarith [two_mul_halfAngle hm]

/-- The difference of a mirrored pair, whose indices are `m - 2 * p` half microsteps from the middle. -/
theorem quarterSine_mirrored_sub {m p : Nat} (hm : 0 < m) (hp : p ≤ m) :
    quarterSine m (m - p) - quarterSine m p = √2 * Real.sin ((m - 2 * p) * halfAngle m) := by
  rw [quarterSine_eq, quarterSine_eq, Nat.cast_sub hp, Real.sin_sub_sin,
    show (2 * (m - p : ℝ) * halfAngle m - 2 * p * halfAngle m) / 2 = (m - 2 * p) * halfAngle m by ring,
    show (2 * (m - p : ℝ) * halfAngle m + 2 * p * halfAngle m) / 2 = m * halfAngle m by ring,
    count_mul_halfAngle hm, Real.cos_pi_div_four]
  ring

/-- The sum of a mirrored pair, whose indices are `m - 2 * p` half microsteps from the middle. -/
theorem quarterSine_mirrored_add {m p : Nat} (hm : 0 < m) (hp : p ≤ m) :
    quarterSine m (m - p) + quarterSine m p = √2 * Real.cos ((m - 2 * p) * halfAngle m) := by
  rw [quarterSine_eq, quarterSine_eq, Nat.cast_sub hp, Real.sin_add_sin,
    show (2 * (m - p : ℝ) * halfAngle m - 2 * p * halfAngle m) / 2 = (m - 2 * p) * halfAngle m by ring,
    show (2 * (m - p : ℝ) * halfAngle m + 2 * p * halfAngle m) / 2 = m * halfAngle m by ring,
    count_mul_halfAngle hm, Real.sin_pi_div_four]
  ring

/-- Up to `M` = 2048 a mirrored pair that is not the middle entry twice differs. -/
theorem curveEntry_lt_mirrored {m p : Nat} (hm : LegalCount m) (h : m ≤ 2048) (hp : p < m / 2) :
    curveEntry m p < curveEntry m (m - p) := by
  have hm0 : 0 < m := by omega
  have hp0 : (0 : ℝ) ≤ p := p.cast_nonneg
  have hp' : (2 : ℝ) * p + 2 ≤ m := by
    have : 2 * p + 2 ≤ m := by omega
    exact_mod_cast this
  have hslope := sub_cube_lt_sin_multiple (x := m - 2 * p) (y := 0.0007) hm0 h (by linarith) (by linarith)
    (by norm_num) (by norm_num; linarith)
  refine curveEntry_lt_of_rise hm (by omega) (by omega) ?_
  rw [quarterSine_mirrored_sub hm0 (by omega)]
  nlinarith [lt_sqrt_two]

/-- The rise of the sum of mirrored sines from one index to the next. -/
theorem mirrored_sum_rise {m i : Nat} (hm : 0 < m) (hi : i + 1 ≤ m) :
    quarterSine m (m - i - 1) + quarterSine m (i + 1) - (quarterSine m (m - i) + quarterSine m i) =
      2 * √2 * (Real.sin (halfAngle m) * Real.sin ((m - 2 * i - 1) * halfAngle m)) := by
  rw [Nat.sub_sub, quarterSine_mirrored_add hm hi, quarterSine_mirrored_add hm (by omega), ← mul_sub,
    Real.cos_sub_cos]
  push_cast
  rw [show ((m - 2 * (i + 1)) * halfAngle m + (m - 2 * i) * halfAngle m) / 2 = (m - 2 * i - 1) * halfAngle m by ring,
    show ((m - 2 * (i + 1)) * halfAngle m - (m - 2 * i) * halfAngle m) / 2 = -halfAngle m by ring, Real.sin_neg]
  ring

/-- Away from the middle the true sum rises by a whole count, which the four roundings cannot undo. -/
theorem curveEntry_sum_le_of_outer {m i : Nat} (hm : LegalCount m) (h : m ≤ 516) (hi : i + 2 ≤ m / 2) :
    curveEntry m i + curveEntry m (m - i) ≤ curveEntry m (i + 1) + curveEntry m (m - i - 1) := by
  have hm0 : 0 < m := by omega
  have hm1 : (1 : ℝ) ≤ m := by exact_mod_cast hm0
  have hi0 : (0 : ℝ) ≤ i := i.cast_nonneg
  have hi' : (2 : ℝ) * i + 4 ≤ m := by
    have : 2 * i + 4 ≤ m := by omega
    exact_mod_cast this
  have hunit := sub_cube_lt_sin_multiple (x := 1) (y := 0.0015) hm0 h (by norm_num) (by linarith) (by norm_num)
    (by norm_num)
  have hslope := sub_cube_lt_sin_multiple (x := m - 2 * i - 1) (y := 0.0045) hm0 h (by linarith) (by linarith)
    (by norm_num) (by norm_num; linarith)
  rw [one_mul] at hunit
  have hprod : 0.0000066 < Real.sin (halfAngle m) * Real.sin ((m - 2 * i - 1) * halfAngle m) := by nlinarith
  have hrise := mirrored_sum_rise hm0 (i := i) (by omega)
  have hcount : 1 ≤ 65535 * (2 * √2 * (Real.sin (halfAngle m) * Real.sin ((m - 2 * i - 1) * halfAngle m))) := by
    nlinarith [lt_sqrt_two]
  obtain ⟨low, -⟩ := curveEntry_bounds hm (i := i) (by omega)
  obtain ⟨low', -⟩ := curveEntry_bounds hm (i := m - i) (by omega)
  obtain ⟨-, high⟩ := curveEntry_bounds hm (i := i + 1) (by omega)
  obtain ⟨-, high'⟩ := curveEntry_bounds hm (i := m - i - 1) (by omega)
  have hlt : (curveEntry m i : ℝ) + curveEntry m (m - i) < curveEntry m (i + 1) + curveEntry m (m - i - 1) + 1 := by
    linarith
  have hlt' : curveEntry m i + curveEntry m (m - i) < curveEntry m (i + 1) + curveEntry m (m - i - 1) + 1 := by
    exact_mod_cast hlt
  omega

/-- Up to `M` = 484 the true sum next to the middle is below twice the crossover entry. -/
theorem curveEntry_sum_beside_middle_of_le {m : Nat} (hm : LegalCount m) (h : m ≤ 484) :
    curveEntry m (m / 2 - 1) + curveEntry m (m - (m / 2 - 1)) ≤ 92680 := by
  have hm0 : 0 < m := by omega
  have hm1 : (1 : ℝ) ≤ m := by exact_mod_cast hm0
  have hunit := sub_cube_lt_sin_multiple (x := 1) (y := 0.0016226) hm0 h (by norm_num) (by linarith) (by norm_num)
    (by norm_num)
  rw [one_mul] at hunit
  have hsum := quarterSine_mirrored_add hm0 (p := m / 2 - 1) (by omega)
  have hcast : (m : ℝ) - 2 * ((m / 2 - 1 : Nat) : ℝ) = 2 := by
    have : m = 2 * (m / 2 - 1) + 2 := by omega
    have : (m : ℝ) = 2 * ((m / 2 - 1 : Nat) : ℝ) + 2 := by exact_mod_cast this
    linarith
  rw [hcast, Real.cos_two_mul_eq_one_sub] at hsum
  have hcos : 1 - 2 * Real.sin (halfAngle m) ^ 2 < 1 - 0.00000526 := by nlinarith
  have hbelow : 65535 * (√2 * (1 - 2 * Real.sin (halfAngle m) ^ 2)) < 92680 := by
    nlinarith [lt_sqrt_two, sqrt_two_lt]
  obtain ⟨low, -⟩ := curveEntry_bounds hm (i := m / 2 - 1) (by omega)
  obtain ⟨low', -⟩ := curveEntry_bounds hm (i := m - (m / 2 - 1)) (by omega)
  have hlt : (curveEntry m (m / 2 - 1) : ℝ) + curveEntry m (m - (m / 2 - 1)) < 92681 := by linarith
  have hlt' : curveEntry m (m / 2 - 1) + curveEntry m (m - (m / 2 - 1)) < 92681 := by exact_mod_cast hlt
  omega

/-- For the sixteen counts left up to `M` = 516 the true sum alone does not decide the rounded one: their entries do. -/
theorem curveEntry_sum_beside_middle_evaluated :
    ∀ k < 16, curveEntry (486 + 2 * k) (242 + k) + curveEntry (486 + 2 * k) (244 + k) ≤ 92680 := by decide

theorem curveEntry_sum_beside_middle {m : Nat} (hm : LegalCount m) (h : m ≤ 516) :
    curveEntry m (m / 2 - 1) + curveEntry m (m - (m / 2 - 1)) ≤ 92680 := by
  by_cases hsmall : m ≤ 484
  · exact curveEntry_sum_beside_middle_of_le hm hsmall
  · have hk := curveEntry_sum_beside_middle_evaluated ((m - 486) / 2) (by omega)
    rwa [show 486 + 2 * ((m - 486) / 2) = m by omega, show 242 + (m - 486) / 2 = m / 2 - 1 by omega,
      show 244 + (m - 486) / 2 = m - (m / 2 - 1) by omega] at hk

/-! ### The statements -/

/-- Settles O48: an entry is the rounded real sine, and it fits the 16 bits of its word. -/
theorem curveIsTheRoundedSine : Obligations.CurveIsTheRoundedSine := by
  intro m i hm hi
  have hle := curveEntry_le hm hi
  rw [curveTable_get hi, Option.map_some, BitVec.toNat_ofNat, Nat.mod_eq_of_lt (by omega), curveEntry_eq_floor hm hi,
    quarterSine]

/-- Settles O49, by the sine of no angle, of a quarter turn and of half of it. -/
theorem curveFixedEntries : Obligations.CurveFixedEntries := by
  intro m hm
  refine ⟨curveTable_length m, ?_, ?_, ?_⟩
  · rw [curveTable_get (Nat.zero_le m), curveEntry_zero hm]
    rfl
  · rw [curveTable_get le_rfl, curveEntry_last hm]
    rfl
  · rw [curveTable_get (Nat.div_le_self m 2), curveEntry_middle hm]
    rfl

/-- Settles O50: rounding keeps the order of the sine; up to `M` = 402 the product rises by a whole count at every index
but the last; the entry before the last one reaches it from 404 on only. -/
theorem curveIsMonotone : Obligations.CurveIsMonotone := by
  intro m hm
  refine ⟨fun i hi => curveEntry_mono hm (Nat.le_succ i) hi, fun h i hi => ?_, fun h => ⟨m - 1, by omega, ?_⟩⟩
  · by_cases htop : i + 1 = m
    · have hlt := curveEntry_pred_last_lt hm h
      rw [htop, curveEntry_last hm, show i = m - 1 by omega]
      exact hlt
    · exact curveEntry_lt_succ hm h (by omega)
  · rw [Nat.sub_add_cancel (by omega), curveEntry_pred_last hm h, curveEntry_last hm]

/-- Settles O51: on either side of the middle the mirrored entries are strictly ordered. -/
theorem mirroredEntriesDiffer : Obligations.MirroredEntriesDiffer := by
  intro m p hm h hp
  obtain ⟨hm2, heven⟩ := hm
  constructor
  · rintro ⟨heq, -⟩
    rcases lt_trichotomy p (m / 2) with hlt | hmiddle | hgt
    · exact absurd heq (curveEntry_lt_mirrored ⟨hm2, heven⟩ h hlt).ne
    · exact hmiddle
    · have hmirror := curveEntry_lt_mirrored ⟨hm2, heven⟩ h (p := m - p) (by omega)
      rw [Nat.sub_sub_self hp] at hmirror
      exact absurd heq hmirror.ne'
  · rintro rfl
    rw [show m - m / 2 = m / 2 by omega, curveEntry_middle ⟨hm2, heven⟩]
    exact ⟨rfl, by norm_num⟩

/-- Settles O52: away from the middle the true sum rises by a whole count; beside it the sum is compared with twice the
crossover entry; the failure at 518 is evaluated. -/
theorem curveSumProperty : Obligations.CurveSumProperty := by
  refine ⟨fun m i hm h hi => ?_, by decide⟩
  by_cases houter : i + 2 ≤ m / 2
  · exact curveEntry_sum_le_of_outer hm h houter
  · have hsum := curveEntry_sum_beside_middle hm h
    have hmiddle := curveEntry_middle hm
    obtain ⟨hm2, heven⟩ := hm
    rw [show i = m / 2 - 1 by omega, show m / 2 - 1 + 1 = m / 2 by omega,
      show m - (m / 2 - 1) - 1 = m / 2 by omega, hmiddle]
    exact hsum

end Sys2Proof.Machine
end

section
/-! PROOFS. The family 41_step_sequencer.md: the step size in half steps (R71 to R74, R77), the alignment move (R86 (b)),
the eight ONESTEP commands (R78 to R85), and commands given in a row (R86 (a), (c)). -/

namespace Sys2Proof.Machine

/-! ### The step size, style by style -/

@[simp] theorem stepSize_microstep (m : Nat) (p : Int) (dir : Direction) : stepSize m p dir .microstep = 1 := by
  simp [stepSize]

/-- SINGLE moves a full step from an even half step (R71). -/
theorem stepSize_single (m : Nat) (p : Int) (dir : Direction) : stepSize m p dir .single =
    if p % half m ≠ 0 then alignMove m p dir else if halfStepParity m p = 0 then (m : Int) else half m := rfl

/-- DOUBLE moves a full step from an odd half step (R71). -/
theorem stepSize_double (m : Nat) (p : Int) (dir : Direction) : stepSize m p dir .double =
    if p % half m ≠ 0 then alignMove m p dir else if halfStepParity m p = 0 then half m else (m : Int) := rfl

/-- INTERLEAVE moves half a step from every half step (R71). -/
theorem stepSize_interleave (m : Nat) (p : Int) (dir : Direction) : stepSize m p dir .interleave =
    if p % half m ≠ 0 then alignMove m p dir else half m := rfl

/-- A coarse style at a misaligned position makes the alignment move, whatever the style (R72). -/
theorem stepSize_of_misaligned {m : Nat} {p : Int} {style : Style} (hstyle : style ≠ .microstep)
    (hmis : p % half m ≠ 0) (dir : Direction) : stepSize m p dir style = alignMove m p dir := by
  simp [stepSize, hstyle, hmis]

/-- The number of half steps a coarse style moves from the half step `k`: SINGLE makes a full step from an even one, DOUBLE
from an odd one (R72 (b)). -/
def halfSteps (k : Int) (style : Style) : Int :=
  match style with
  | .single => if k % 2 = 0 then 2 else 1
  | .double => if k % 2 = 0 then 1 else 2
  | .interleave => 1
  | .microstep => 0

theorem halfStepParity_half_mul {m : Nat} (h : LegalCount m) (k : Int) : halfStepParity m (half m * k) = k % 2 := by
  have hpos := half_pos h
  rw [halfStepParity, fdiv, fmod, Int.mul_ediv_cancel_left k (by omega)]

/-- At the half step `k` a coarse style moves a whole number of half steps, in either direction (R71). -/
theorem stepSize_half_mul {m : Nat} {style : Style} (h : LegalCount m) (hstyle : style ≠ .microstep) (k : Int)
    (dir : Direction) : stepSize m (half m * k) dir style = half m * halfSteps k style := by
  have htwo := two_mul_half h
  have halign : ¬ half m * k % half m ≠ 0 := not_not.2 (Int.mul_emod_right (half m) k)
  cases style with
  | single =>
    rw [stepSize_single, if_neg halign, halfStepParity_half_mul h, halfSteps]
    split <;> omega
  | double =>
    rw [stepSize_double, if_neg halign, halfStepParity_half_mul h, halfSteps]
    split <;> omega
  | interleave => rw [stepSize_interleave, if_neg halign, halfSteps, mul_one]
  | microstep => exact absurd rfl hstyle

/-- An aligned position is a number of half steps (R71). -/
theorem exists_half_mul {m : Nat} {p : Int} (halign : p % half m = 0) : ∃ k, p = half m * k :=
  Int.dvd_of_emod_eq_zero halign

/-! ### Where a coarse style lands -/

/-- From the half step `k` a coarse style lands on a half step. -/
theorem nextPos_half_mul {m : Nat} {style : Style} (h : LegalCount m) (hstyle : style ≠ .microstep) (k : Int)
    (dir : Direction) : nextPos m (half m * k) dir style = half m * move dir k (halfSteps k style) := by
  rw [nextPos, stepSize_half_mul h hstyle]
  cases dir <;> simp only [move] <;> ring

/-- The half step next to a position between the half steps `k` and `k + 1`, in a direction. -/
def nearestHalfStep (dir : Direction) (k : Int) : Int :=
  match dir with
  | .forward => k + 1
  | .backward => k

/-- From a misaligned position a coarse style lands on the nearest half step in its direction (R86 (b)). -/
theorem nextPos_of_misaligned {m : Nat} {p : Int} {style : Style} (hstyle : style ≠ .microstep)
    (hmis : p % half m ≠ 0) (dir : Direction) :
    nextPos m p dir style = half m * nearestHalfStep dir (p / half m) := by
  have hsplit := Int.mul_ediv_add_emod p (half m)
  rw [nextPos, stepSize_of_misaligned hstyle hmis]
  cases dir <;> simp only [move, alignMove, nearestHalfStep, fmod] <;> linarith

/-- One command of a coarse style aligns the position (R73). -/
theorem nextPos_aligned {m : Nat} {style : Style} (h : LegalCount m) (hstyle : style ≠ .microstep) (p : Int)
    (dir : Direction) : nextPos m p dir style % half m = 0 := by
  by_cases halign : p % half m = 0
  · obtain ⟨k, rfl⟩ := exists_half_mul halign
    rw [nextPos_half_mul h hstyle, Int.mul_emod_right]
  · rw [nextPos_of_misaligned hstyle halign, Int.mul_emod_right]

theorem between_half_steps {m : Nat} {p : Int} (h : LegalCount m) (hmis : p % half m ≠ 0) :
    half m * (p / half m) < p ∧ p < half m * (p / half m + 1) := by
  have hsplit := Int.mul_ediv_add_emod p (half m)
  have hbound := alignMove_bounds h hmis .backward
  simp only [alignMove, fmod] at hbound
  rw [mul_add, mul_one]
  omega

/-- A multiple of `half` lies at or below the last half step under a position, or at or above the one after. -/
theorem half_step_not_between {m : Nat} {q : Int} (h : LegalCount m) (hq : q % half m = 0) (p : Int) :
    q ≤ half m * (p / half m) ∨ half m * (p / half m + 1) ≤ q := by
  obtain ⟨j, rfl⟩ := exists_half_mul hq
  have hpos : 0 ≤ half m := by linarith [half_pos h]
  rcases le_or_gt j (p / half m) with hle | hgt
  · exact .inl (mul_le_mul_of_nonneg_left hle hpos)
  · exact .inr (mul_le_mul_of_nonneg_left hgt hpos)

/-! ### Settled positions -/

theorem half_mul_emod {m : Nat} (h : LegalCount m) (k : Int) : half m * k % (m : Int) = half m * (k % 2) := by
  have hpos : 0 < half m := half_pos h
  rw [← two_mul_half h, mul_comm 2, Int.mul_emod_mul_of_pos k 2 hpos]

/-- SINGLE is settled on the even half steps (R73). -/
theorem settled_single_half_mul {m : Nat} (h : LegalCount m) (k : Int) :
    Settled m .single (half m * k) ↔ k % 2 = 0 := by
  have hpos := half_pos h
  rw [Settled, half_mul_emod h, mul_eq_zero]
  omega

/-- DOUBLE is settled on the odd half steps (R73). -/
theorem settled_double_half_mul {m : Nat} (h : LegalCount m) (k : Int) :
    Settled m .double (half m * k) ↔ k % 2 = 1 := by
  have hpos := half_pos h
  rw [Settled, half_mul_emod h]
  exact mul_eq_left₀ (by omega : half m ≠ 0)

/-- The grid of a coarse style is a part of the half steps. -/
theorem aligned_of_settled {m : Nat} {p : Int} {style : Style} (h : LegalCount m) (hstyle : style ≠ .microstep)
    (hs : Settled m style p) : p % half m = 0 := by
  have hdvd : half m ∣ (m : Int) := ⟨2, by rw [mul_comm, two_mul_half h]⟩
  cases style with
  | single =>
    rw [Settled] at hs
    rw [← Int.emod_emod_of_dvd p hdvd, hs, Int.zero_emod]
  | double =>
    rw [Settled] at hs
    rw [← Int.emod_emod_of_dvd p hdvd, hs]
    exact Int.emod_self
  | interleave => exact hs
  | microstep => exact absurd rfl hstyle

/-- A settled style moves by its nominal size (R73). -/
theorem stepSize_of_settled {m : Nat} {p : Int} {style : Style} (h : LegalCount m) (hs : Settled m style p)
    (dir : Direction) : stepSize m p dir style = nominalSize m style := by
  by_cases hstyle : style = .microstep
  · subst hstyle
    exact stepSize_microstep m p dir
  · obtain ⟨k, rfl⟩ := exists_half_mul (aligned_of_settled h hstyle hs)
    have htwo := two_mul_half h
    rw [stepSize_half_mul h hstyle]
    cases style with
    | single =>
      rw [settled_single_half_mul h] at hs
      rw [halfSteps, if_pos hs, nominalSize]
      omega
    | double =>
      rw [settled_double_half_mul h] at hs
      rw [halfSteps, if_neg (by omega), nominalSize]
      omega
    | interleave => exact mul_one (half m)
    | microstep => exact absurd rfl hstyle

/-- From an aligned position every style lands settled: SINGLE and DOUBLE move by the parity they lack (R73). -/
theorem settled_nextPos_of_aligned {m : Nat} {p : Int} (h : LegalCount m) (halign : p % half m = 0) (dir : Direction)
    (style : Style) : Settled m style (nextPos m p dir style) := by
  obtain ⟨k, rfl⟩ := exists_half_mul halign
  cases style with
  | single =>
    rw [nextPos_half_mul h (by decide), settled_single_half_mul h]
    cases dir <;> simp only [move, halfSteps] <;> split <;> omega
  | double =>
    rw [nextPos_half_mul h (by decide), settled_double_half_mul h]
    cases dir <;> simp only [move, halfSteps] <;> split <;> omega
  | interleave => exact nextPos_aligned h (by decide) _ dir
  | microstep => trivial

/-- A style that is settled stays so (R73). -/
theorem settled_nextPos_of_settled {m : Nat} {p : Int} {style : Style} (h : LegalCount m) (hs : Settled m style p)
    (dir : Direction) : Settled m style (nextPos m p dir style) := by
  by_cases hstyle : style = .microstep
  · subst hstyle
    trivial
  · exact settled_nextPos_of_aligned h (aligned_of_settled h hstyle hs) dir style

/-- SINGLE and DOUBLE, aligned on the grid of each other, move half a full step (R73). -/
theorem stepSize_of_unsettled {m : Nat} {p : Int} {style : Style} (h : LegalCount m)
    (hstyle : style = .single ∨ style = .double) (halign : p % half m = 0) (hs : ¬ Settled m style p)
    (dir : Direction) : stepSize m p dir style = half m := by
  obtain ⟨k, rfl⟩ := exists_half_mul halign
  rcases hstyle with rfl | rfl
  · rw [settled_single_half_mul h] at hs
    rw [stepSize_half_mul h (by decide), halfSteps, if_neg hs, mul_one]
  · rw [settled_double_half_mul h] at hs
    rw [stepSize_half_mul h (by decide), halfSteps, if_pos (by omega), mul_one]

/-- Two commands settle every style: the first aligns a coarse one (R73). -/
theorem settled_nextPos_nextPos {m : Nat} (h : LegalCount m) (p : Int) (dir : Direction) (style : Style) :
    Settled m style (nextPos m (nextPos m p dir style) dir style) := by
  by_cases hstyle : style = .microstep
  · subst hstyle
    trivial
  · exact settled_nextPos_of_aligned h (nextPos_aligned h hstyle p dir) dir style

/-! ### The answer of an ONESTEP -/

/-- In digital mode an ONESTEP whose style has a table is a digital step of one count (R69). -/
theorem digitalStep_of_ready {i : Instr} {dir : Direction} {style : Style} {table : Table} {s : State}
    (hf : stepFields i = some (dir, style)) (ht : tableOf style = some table) (hs : DigitalReady s) :
    DigitalStep i s table (move dir s.pos 1) := by
  obtain ⟨hc, ha⟩ := hs
  have hexec : exec i s = onestepDigital dir table s := by simp [exec_onestep hf, onestep, hc, ha, ht]
  refine ⟨fun hr => ⟨_, energizeDigital_spec s.build table (move dir s.pos 1), ?_⟩, fun hr => ?_⟩
  · rw [hexec, onestepDigital, if_pos hr]
    rfl
  · rw [hexec, onestepDigital, if_neg (by simp [hr])]
    rfl

/-- In digital mode a MICROSTEP raises InvalidStyleError (R70). -/
theorem exec_microstep_of_digital {i : Instr} {dir : Direction} {s : State}
    (hf : stepFields i = some (dir, .microstep)) (hs : DigitalReady s) :
    exec i s = .next (afterError s .invalidStyleError) := by
  obtain ⟨hc, ha⟩ := hs
  rw [← raise_eq_afterError]
  simp [exec_onestep hf, onestep, hc, ha, tableOf]

/-- In analog mode an ONESTEP is an analog step by the size of R71; the curve has every entry the energizer reads (R38). -/
theorem analogStep_of_ready {i : Instr} {dir : Direction} {style : Style} {s : State} {curve : List U16}
    (hf : stepFields i = some (dir, style)) (hs : AnalogReady s curve) :
    AnalogStep i s curve (decide (style ≠ .microstep)) (nextPos s.cfg.m s.pos dir style) := by
  obtain ⟨hc, ha, ⟨hm, -⟩, hcurve, hlen⟩ := hs
  have hexec : exec i s = onestepAnalog dir style s := by simp [exec_onestep hf, onestep, hc, ha]
  obtain ⟨q, hq, henergize⟩ :=
    energizeAnalog_isSome (by omega) hcurve hlen style (nextPos s.cfg.m s.pos dir style)
  rw [nextPos] at hq henergize ⊢
  refine ⟨fun hr => ⟨q, analogDuties_spec hq, ?_⟩, fun hr => ?_⟩
  · simp only [hexec, onestepAnalog, if_pos hr, henergize, commitStep_eq_afterSuccess]
  · simp [hexec, onestepAnalog, hr, raise_eq_afterError]

/-- The rule of a command with a coarse style (R78 to R80, R82 to R84), with the size still by its name: at
each style `stepSize` is R71's branches by definition (`stepSize_single`, `stepSize_double`, `stepSize_interleave`). -/
theorem coarse_follows_rule (dir : Direction) {style : Style} {table : Table} (ht : tableOf style = some table)
    (s : State) :
    (s.cfgErr = true → exec (onestepOf dir style) s = .next (afterError s .configurationError)) ∧
    (DigitalReady s → DigitalStep (onestepOf dir style) s table (move dir s.pos 1)) ∧
    (∀ curve, AnalogReady s curve → AnalogStep (onestepOf dir style) s curve true (nextPos s.cfg.m s.pos dir style)) := by
  have hstyle : decide (style ≠ .microstep) = true := by
    simp [← tableOf_eq_none, ht]
  have hf := stepFields_onestepOf dir style
  exact ⟨fun hc => exec_of_cfgErr hc _, digitalStep_of_ready hf ht, fun _ hs => hstyle ▸ analogStep_of_ready hf hs⟩

/-- The rule of a MICROSTEP command (R81, R85). -/
theorem microstep_follows_rule (dir : Direction) (s : State) :
    (s.cfgErr = true → exec (onestepOf dir .microstep) s = .next (afterError s .configurationError)) ∧
    (DigitalReady s → exec (onestepOf dir .microstep) s = .next (afterError s .invalidStyleError)) ∧
    (∀ curve, AnalogReady s curve → AnalogStep (onestepOf dir .microstep) s curve false (move dir s.pos 1)) := by
  have hf := stepFields_onestepOf dir .microstep
  exact ⟨fun hc => exec_of_cfgErr hc _, exec_microstep_of_digital hf, fun _ hs => analogStep_of_ready hf hs⟩

/-! ### Which commands can succeed -/

/-- An ONESTEP is illegal only as MICROSTEP in digital mode (R53, R70). -/
theorem legalIn_of_stepFields {i : Instr} {dir : Direction} {style : Style} (hf : stepFields i = some (dir, style))
    (analog : Bool) : i.legalIn analog = true ↔ ¬ (analog = false ∧ style = .microstep) := by
  revert hf
  cases i <;> simp +contextual [stepFields, Instr.legalIn, eq_comm]

theorem legalIn_of_isReserved {i : Instr} (hr : isReserved i = true) (analog : Bool) : i.legalIn analog = false := by
  revert hr
  cases i <;> simp [isReserved, Instr.legalIn]

/-- No error is due exactly if the configuration is valid, the command is legal in the mode, and an ONESTEP stays in
range (R112). -/
theorem dueError_eq_ok_iff {i : Instr} {s : State} :
    dueError i s = .ok ↔ s.cfgErr = false ∧ i.legalIn s.cfg.analog = true ∧
      ∀ dir style, stepFields i = some (dir, style) → inRange s.build (computedPos s dir style) = true := by
  cases hc : s.cfgErr with
  | true => simp [dueError_of_cfgErr hc]
  | false =>
    rcases instr_kinds i with ⟨dir, style, hf⟩ | rfl | hr
    · rw [dueError_onestep hf hc, legalIn_of_stepFields hf, hf]
      split_ifs <;> simp_all
    · simp [dueError, hc, isReserved, stepFields, Instr.legalIn]
    · simp [dueError_of_isReserved hc hr, legalIn_of_isReserved hr]

/-- The origin is in range for every width of the counter (R11). -/
theorem inRange_zero (b : Build) : inRange b 0 = true := by
  cases hw : b.posW with
  | none => exact inRange_of_unbounded hw 0
  | some w =>
    have hpow : (0 : Int) < 2 ^ (w - 1) := by positivity
    rw [inRange_iff_of_width hw]
    omega

/-- A reset of a block with legal build parameters meets the invariant, whatever the straps (R118). -/
theorem inv_takeReset {s : State} (hw : s.build.wf = true) (st : Straps) : (takeReset st s).Inv where
  build_wf := hw
  latched := Nat.mod_lt _ (by positivity)
  cfgErr_eq := rfl
  curve_eq := rfl
  pos_range := inRange_zero s.build
  tsel_analog _ := rfl
  out_shape := by cases ha : st.analog <;> simp [ha, Outputs.off, Outputs.isDuties, latchStraps]
  invalid_rest _ := ⟨rfl, rfl, rfl⟩

/-- The default block with an unbounded counter (R7), reset to the given mode with `M` = 16. -/
def freshUnbounded (analog : Bool) : State :=
  takeReset { analog := analog, m := 16, freqOk := true }
    { State.reset with build := { defaultBuild with posW := none } }

theorem inv_freshUnbounded (analog : Bool) : (freshUnbounded analog).Inv := inv_takeReset (by decide) _

/-- With nothing to overflow, a command legal in the mode succeeds. -/
theorem dueError_freshUnbounded {i : Instr} {analog : Bool} (hi : i.legalIn analog = true) :
    dueError i (freshUnbounded analog) = .ok := by
  have hvalid : (freshUnbounded analog).cfgErr = false := by cases analog <;> decide
  exact dueError_eq_ok_iff.2 ⟨hvalid, hi, fun _ _ _ => inRange_of_unbounded rfl _⟩

/-! ### Commands in a row -/

theorem repeatCommand_succ {i : Instr} {s t : State} (h : exec i s = .next t) (n : Nat) :
    repeatCommand i (n + 1) s = repeatCommand i n t := by
  simp [repeatCommand, h]

/-- On the states of the class `P` the command moves by `size` and stays in the class, if the register holds the new
position. -/
def MovesBy (i : Instr) (P : State → Prop) (dir : Direction) (size : Int) : Prop :=
  ∀ s, P s → inRange s.build (move dir s.pos size) = true →
    ∃ t, exec i s = .next t ∧ P t ∧ t.pos = move dir s.pos size

theorem move_move (dir : Direction) (p a b : Int) : move dir (move dir p a) b = move dir p (a + b) := by
  cases dir <;> simp only [move] <;> ring

/-- The register holds a position on the way if it holds both ends of the way (R11). -/
theorem inRange_move_of_le {b : Build} {dir : Direction} {p a c : Int} (hp : inRange b p = true)
    (hc : inRange b (move dir p c) = true) (ha : 0 ≤ a) (hac : a ≤ c) : inRange b (move dir p a) = true := by
  cases dir with
  | forward => exact inRange_between hp hc (by simp only [move]; omega) (by simp only [move]; omega)
  | backward => exact inRange_between hc hp (by simp only [move]; omega) (by simp only [move]; omega)

/-- `n` commands move by `n` sizes, if the register holds the last position. -/
theorem MovesBy.iterate {i : Instr} {P : State → Prop} {dir : Direction} {size : Int} (h : MovesBy i P dir size)
    (hsize : 0 ≤ size) (n : Nat) {s : State} (hs : P s) (hstart : inRange s.build s.pos = true)
    (hend : inRange s.build (move dir s.pos (n * size)) = true) :
    ∃ t, repeatCommand i n s = .next t ∧ P t ∧ t.build = s.build ∧ t.pos = move dir s.pos (n * size) := by
  induction n generalizing s with
  | zero => exact ⟨s, rfl, hs, rfl, by cases dir <;> simp [move]⟩
  | succ n ih =>
    have hsum : ((n + 1 : Nat) : Int) * size = size + n * size := by push_cast; ring
    have hrest : 0 ≤ (n : Int) * size := by positivity
    rw [hsum] at hend ⊢
    have hnext := inRange_move_of_le hstart hend hsize (by omega)
    obtain ⟨t, hexec, ht, hpos⟩ := h s hs hnext
    obtain ⟨hbuild, -⟩ := commandsNeverTouchTheConfiguration i s t hexec
    rw [← move_move, ← hpos] at hend ⊢
    rw [← hpos] at hnext
    rw [← hbuild] at hnext hend ⊢
    rw [repeatCommand_succ hexec]
    exact ih ht hnext hend

/-- `n` commands forward and `n` back return to the start (R86 (c)). -/
theorem MovesBy.undone {i j : Instr} {P : State → Prop} {size : Int} (hi : MovesBy i P .forward size)
    (hj : MovesBy j P .backward size) (hsize : 0 ≤ size) (n : Nat) {s : State} (hs : P s)
    (hstart : inRange s.build s.pos = true) (hend : inRange s.build (s.pos + n * size) = true) :
    ∃ t u, repeatCommand i n s = .next t ∧ t.pos = s.pos + n * size ∧ repeatCommand j n t = .next u ∧
      u.pos = s.pos := by
  obtain ⟨t, hforward, ht, hbuild, hpos⟩ := hi.iterate hsize n hs hstart hend
  have hback : move .backward t.pos (n * size) = s.pos := by rw [hpos]; exact add_sub_cancel_right _ _
  obtain ⟨u, hbackward, -, -, hu⟩ := hj.iterate hsize n ht (by rw [hbuild, hpos]; exact hend)
    (by rw [hback, hbuild]; exact hstart)
  exact ⟨t, u, hforward, hpos, hbackward, hu.trans hback⟩

/-- The analog states with the count `m` that are settled for a style. -/
def SettledState (curve : List U16) (m : Nat) (style : Style) (s : State) : Prop :=
  AnalogReady s curve ∧ s.cfg.m = m ∧ Settled m style s.pos

/-- A settled style moves by its nominal size and stays settled (R73). -/
theorem movesBy_of_settled {i : Instr} {dir : Direction} {style : Style} (hf : stepFields i = some (dir, style))
    (curve : List U16) (m : Nat) : MovesBy i (SettledState curve m style) dir (nominalSize m style) := by
  rintro s ⟨hready, rfl, hs⟩ hr
  have ⟨_, _, hlegal, _⟩ := hready
  have hnext : nextPos s.cfg.m s.pos dir style = move dir s.pos (nominalSize s.cfg.m style) := by
    rw [nextPos, stepSize_of_settled hlegal hs]
  obtain ⟨hsuccess, -⟩ := analogStep_of_ready hf hready
  obtain ⟨q, -, hexec⟩ := hsuccess (hnext ▸ hr)
  exact ⟨_, hexec, ⟨hready, rfl, settled_nextPos_of_settled hlegal hs dir⟩, hnext⟩

/-- A digital step moves by one count (R69). -/
theorem movesBy_of_digital {i : Instr} {dir : Direction} {style : Style} {table : Table}
    (hf : stepFields i = some (dir, style)) (ht : tableOf style = some table) :
    MovesBy i (fun s => DigitalReady s) dir 1 := by
  intro s hs hr
  obtain ⟨hsuccess, -⟩ := digitalStep_of_ready hf ht hs
  obtain ⟨q, -, hexec⟩ := hsuccess hr
  exact ⟨_, hexec, hs, rfl⟩

theorem nominalSize_nonneg (m : Nat) (style : Style) : 0 ≤ nominalSize m style := by
  cases style <;> simp only [nominalSize] <;> omega

/-- `n` MICROSTEP commands move by `n` counts from every position: MICROSTEP is settled everywhere (R73). -/
theorem microsteps_move {i : Instr} {dir : Direction} (hf : stepFields i = some (dir, .microstep)) {s : State}
    {curve : List U16} {n : Nat} (hready : AnalogReady s curve) (hstart : inRange s.build s.pos = true)
    (hend : inRange s.build (move dir s.pos n) = true) :
    ∃ t, repeatCommand i n s = .next t ∧ t.pos = move dir s.pos n := by
  have hcount : (n : Int) * nominalSize s.cfg.m .microstep = n := mul_one _
  obtain ⟨t, hrun, -, -, hpos⟩ := (movesBy_of_settled hf curve s.cfg.m).iterate (nominalSize_nonneg _ _) n
    ⟨hready, rfl, trivial⟩ hstart (by rwa [hcount])
  exact ⟨t, hrun, by rwa [hcount] at hpos⟩

/-! ### A full step on -/

/-- `M` counts on, the phase is the same (R97). -/
theorem phase_add_count (m : Nat) (p : Int) : phase m (p + m) = phase m p := Int.add_emod_right p m

/-- `M` counts on, the trailing coil is the next one (R97). -/
theorem trailing_add_count {m : Nat} (hm : 0 < m) (p : Int) : trailing m (p + m) = trailing m p + 1 := by
  have hdiv : (p + m) / (m : Int) = p / m + 1 := by
    rw [Int.add_ediv_of_dvd_right (dvd_refl _), Int.ediv_self (by omega)]
  have hval := leading_val m p
  have hnext := trailing_val m (p + m)
  rw [hdiv] at hnext
  change trailing m (p + m) = leading m p
  apply Fin.ext
  omega

/-! ### The statements -/

/-- Settles O3: a response OK means that no error was due, and a command legal in the mode meets none at a fresh block
with an unbounded counter. -/
theorem legalInMeansCanSucceed : Obligations.LegalInMeansCanSucceed := by
  refine fun i analog => ⟨?_, fun hi => ?_⟩
  · rintro ⟨s, t, -, rfl, hexec, hrsp⟩
    have hdue : dueError i s = .ok := by simpa [exec_rsp hexec] using hrsp
    exact (dueError_eq_ok_iff.1 hdue).2.1
  · obtain ⟨t, hexec⟩ := exec_isNext (inv_freshUnbounded analog) i
    exact ⟨_, t, inv_freshUnbounded analog, rfl, hexec, dueError_freshUnbounded hi ▸ exec_rsp hexec⟩

/-- Settles O12: the rule of a coarse style, with R71's size at SINGLE forward. -/
theorem forwardSingleFollowsItsRule : Obligations.ForwardSingleFollowsItsRule :=
  coarse_follows_rule .forward (style := .single) rfl

/-- Settles O13: the rule of a coarse style, with R71's size at DOUBLE forward. -/
theorem forwardDoubleFollowsItsRule : Obligations.ForwardDoubleFollowsItsRule :=
  coarse_follows_rule .forward (style := .double) rfl

/-- Settles O14: the rule of a coarse style, with R71's size at INTERLEAVE forward. -/
theorem forwardInterleaveFollowsItsRule : Obligations.ForwardInterleaveFollowsItsRule :=
  coarse_follows_rule .forward (style := .interleave) rfl

/-- Settles O15: the rule of MICROSTEP forward. -/
theorem forwardMicrostepFollowsItsRule : Obligations.ForwardMicrostepFollowsItsRule :=
  microstep_follows_rule .forward

/-- Settles O16: the rule of a coarse style, with R71's size at SINGLE backward. -/
theorem backwardSingleFollowsItsRule : Obligations.BackwardSingleFollowsItsRule :=
  coarse_follows_rule .backward (style := .single) rfl

/-- Settles O17: the rule of a coarse style, with R71's size at DOUBLE backward. -/
theorem backwardDoubleFollowsItsRule : Obligations.BackwardDoubleFollowsItsRule :=
  coarse_follows_rule .backward (style := .double) rfl

/-- Settles O18: the rule of a coarse style, with R71's size at INTERLEAVE backward. -/
theorem backwardInterleaveFollowsItsRule : Obligations.BackwardInterleaveFollowsItsRule :=
  coarse_follows_rule .backward (style := .interleave) rfl

/-- Settles O19: the rule of MICROSTEP backward. -/
theorem backwardMicrostepFollowsItsRule : Obligations.BackwardMicrostepFollowsItsRule :=
  microstep_follows_rule .backward

/-- Settles O32, by the bounds of the size in each branch of R71. -/
theorem stepSizeIsWithinOneFullStep : Obligations.StepSizeIsWithinOneFullStep := by
  intro m p dir style h
  obtain ⟨hlow, hhigh⟩ := stepSize_bounds h p dir style
  exact ⟨hlow, hhigh, stepSize_microstep m p dir⟩

/-- Settles O33: the first command aligns a coarse style, and from an aligned position every style lands settled. -/
theorem stylesSettleOnTheirGrid : Obligations.StylesSettleOnTheirGrid := by
  intro m p dir h
  refine ⟨fun style hs => ?_, fun style hstyle halign hs => ?_, fun style hstyle _ => ?_, fun style => ?_, ?_⟩
  · exact ⟨stepSize_of_settled h hs dir, settled_nextPos_of_settled h hs dir⟩
  · exact ⟨stepSize_of_unsettled h hstyle halign hs dir, settled_nextPos_of_aligned h halign dir style⟩
  · exact nextPos_aligned h hstyle p dir
  · exact settled_nextPos_nextPos h p dir style
  · exact nextPos_aligned h (by decide) p dir

/-- Settles O34: the two half steps around the position are neighbours, so no multiple of `half` lies between. -/
theorem alignmentMoveSkipsNoDetent : Obligations.AlignmentMoveSkipsNoDetent := by
  intro m p dir style h hstyle hmis
  have hnear := between_half_steps h hmis
  have hnext := nextPos_of_misaligned hstyle hmis dir
  refine ⟨nextPos_aligned h hstyle p dir, ?_, ?_, fun q hq => ?_⟩
  · rintro rfl
    exact hnext ▸ hnear.2
  · rintro rfl
    exact hnext ▸ hnear.1
  · have hq := half_step_not_between h hq p
    cases dir <;> simp only [nearestHalfStep] at hnext <;> omega

/-- Settles O36: at `M` = 2 a half step is one count, so the position is its own half-step index. -/
theorem smallestConfigurationNeverAligns : Obligations.SmallestConfigurationNeverAligns := by
  intro p dir
  have hlegal : LegalCount 2 := by decide
  have halign : p % half 2 = 0 := Int.emod_one p
  refine ⟨halign, stepSize_microstep 2 p dir, ?_, fun style hstyle => ⟨fun hs => ?_, fun hs => ?_⟩, ?_⟩
  · exact stepSize_of_settled (style := .interleave) hlegal halign dir
  · rw [stepSize_of_settled hlegal hs]
    rcases hstyle with rfl | rfl <;> rfl
  · exact stepSize_of_unsettled hlegal hstyle halign hs dir
  · exact congrArg (· % 2) (Int.ediv_one p)

/-- Settles O37: `M` commands move by `M` counts, which is one coil at the same phase; backward the two are read from the
end. -/
theorem fullStepOfMicrosteps : Obligations.FullStepOfMicrosteps := by
  intro s curve hready hstart
  have hm : 0 < s.cfg.m := by
    obtain ⟨-, -, ⟨hm, -⟩, -⟩ := hready
    omega
  refine ⟨fun hend => ?_, fun hend => ?_⟩
  · obtain ⟨t, hrun, hpos⟩ := microsteps_move (i := .onestepFMicrostep) rfl hready hstart hend
    exact ⟨t, hrun, hpos, hpos ▸ phase_add_count s.cfg.m s.pos, hpos ▸ trailing_add_count hm s.pos⟩
  · obtain ⟨t, hrun, hpos⟩ := microsteps_move (i := .onestepBMicrostep) rfl hready hstart hend
    have hback : t.pos + s.cfg.m = s.pos := by rw [hpos]; exact sub_add_cancel _ _
    exact ⟨t, hrun, hpos, hback ▸ (phase_add_count s.cfg.m t.pos).symm, hback ▸ (trailing_add_count hm t.pos).symm⟩

/-- Settles O38: a settled style moves by its nominal size and stays settled, in both directions. -/
theorem settledStepsAreUndone : Obligations.SettledStepsAreUndone := by
  intro s curve style n hready hs hstart hend
  have hmoves (dir : Direction) := movesBy_of_settled (stepFields_onestepOf dir style) curve s.cfg.m
  exact (hmoves .forward).undone (hmoves .backward) (nominalSize_nonneg _ _) n ⟨hready, rfl, hs⟩ hstart hend

/-- Settles O39: a digital step moves by one count in both directions. -/
theorem digitalStepsAreUndone : Obligations.DigitalStepsAreUndone := by
  intro s style n hready hstyle hstart hend
  obtain ⟨table, ht⟩ := Option.ne_none_iff_exists'.1 (mt tableOf_eq_none.1 hstyle)
  have hmoves (dir : Direction) := movesBy_of_digital (stepFields_onestepOf dir style) ht
  simpa using (hmoves .forward).undone (hmoves .backward) zero_le_one n hready hstart (by simpa using hend)

/-- Settles O35: at a half step the size does not look at the direction, and the two alignment moves make up `half`. -/
theorem forwardAndBackwardSizes : Obligations.ForwardAndBackwardSizes := by
  intro m p style h
  refine ⟨fun halign => ?_, fun hmis hstyle => ?_⟩
  · by_cases hstyle : style = .microstep
    · simp [hstyle]
    · obtain ⟨k, rfl⟩ := exists_half_mul halign
      rw [stepSize_half_mul h hstyle, stepSize_half_mul h hstyle]
  · rw [stepSize_of_misaligned hstyle hmis, stepSize_of_misaligned hstyle hmis]
    exact sub_add_cancel _ _

end Sys2Proof.Machine
end

section
/-! PROOFS. The family 42_coil_energizer.md: the two duties of the pair (R90 to R93), the period of the analog excitation
(R97), the pins (R94), and what `OUT` remembers from step to step (R96). -/

namespace Sys2Proof.Machine

/-! ### What `OUT` remembers -/

/-- What the host presents is not remembered in `OUT`. -/
theorem excited_withInputs {s : State} (h : s.Excited) (rest : List PortInputs) :
    ({ s with inputs := rest } : State).Excited := h

theorem excited_idle {s : State} (h : s.Excited) : (idle s).Excited := h

theorem excited_raise {s : State} (h : s.Excited) (e : ErrorCode) : (raise e s).Excited := h

theorem excited_takeReset (st : Straps) (s : State) : (takeReset st s).Excited := .inl rfl

theorem excited_release (s : State) : (respond .ok (writeOutputs (Outputs.off s.cfg.analog) s)).Excited := .inl rfl

/-- The commit of an ONESTEP writes the excitation of the position it writes (R40, R87, R90). -/
theorem excited_commitStep {s : State} {style : Style} {p : Int} {ts : Option Table} {o : Outputs}
    (h : Energized s style p ts o) : (commitStep p ts o s).Excited := by
  rcases h with ⟨hdigital, table, -, rfl, rfl⟩ | ⟨hanalog, -, hduties⟩
  · exact .inr (.inl ⟨hdigital, table, _, rfl, rfl, energizeDigital_spec s.build table p⟩)
  · obtain ⟨curve, q, hcurve, hq, rfl⟩ := energizeAnalog_eq_some hduties
    exact .inr (.inr ⟨hanalog, curve, _, q, hcurve, rfl, analogDuties_spec hq⟩)

theorem excited_exec {i : Instr} {s t : State} (h : s.Excited) (hexec : exec i s = .next t) : t.Excited := by
  rcases exec_next hexec with ⟨e, -, rfl⟩ | ⟨_, _, -, -, -, _, _, henergized, rfl⟩ | ⟨-, -, rfl⟩
  · exact excited_raise h e
  · exact excited_commitStep henergized
  · exact excited_release s

/-! ### The group of four -/

@[simp] theorem pairDuties_get_trailing (m : Nat) (p : Int) (duties : U16 × U16) :
    (pairDuties m p duties).get (trailing m p) = duties.2 := by
  simp [pairDuties, (leading_ne_trailing m p).symm]

@[simp] theorem pairDuties_get_leading (m : Nat) (p : Int) (duties : U16 × U16) :
    (pairDuties m p duties).get (leading m p) = duties.1 := by
  simp [pairDuties]

theorem pairDuties_get_of_ne {m : Nat} {p : Int} {k : Fin 4} (htrail : k ≠ trailing m p) (hlead : k ≠ leading m p)
    (duties : U16 × U16) : (pairDuties m p duties).get k = 0 := by
  simp [pairDuties, htrail, hlead]

/-- With a leading duty of 0 the trailing coil alone can be on. -/
theorem pairDuties_get_of_ne_trailing {m : Nat} {p : Int} {k : Fin 4} (htrail : k ≠ trailing m p) (duty : U16) :
    (pairDuties m p (0, duty)).get k = 0 := by
  by_cases hlead : k = leading m p
  · rw [hlead, pairDuties_get_leading]
  · exact pairDuties_get_of_ne htrail hlead _

/-- With two duties that are not 0 exactly the pair is on. -/
theorem pairDuties_get_ne_zero_iff {duties : U16 × U16} (hlead : duties.1 ≠ 0) (htrail : duties.2 ≠ 0) (m : Nat)
    (p : Int) (k : Fin 4) : (pairDuties m p duties).get k ≠ 0 ↔ (k = trailing m p ∨ k = leading m p) := by
  constructor
  · intro hon
    by_contra hpair
    obtain ⟨htrail, hlead⟩ := not_or.1 hpair
    exact hon (pairDuties_get_of_ne htrail hlead _)
  · rintro (rfl | rfl)
    · rwa [pairDuties_get_trailing]
    · rwa [pairDuties_get_leading]

/-! ### The crossover override -/

theorem crossover_microstep (lead trail : U16) : crossover .microstep lead trail = (lead, trail) := by
  simp [crossover]

theorem crossover_of_ne {lead trail : U16} (h : lead ≠ trail) (style : Style) :
    crossover style lead trail = (lead, trail) := by
  simp [crossover, h]

theorem crossover_of_equal {style : Style} {duty : U16} (hstyle : style ≠ .microstep) (h : duty ≠ 0) :
    crossover style duty duty = (65535, 65535) := by
  rw [crossover, if_pos ⟨hstyle, rfl, h⟩]

/-- The override looks at the style's class only. -/
theorem crossover_congr {st st' : Style} (h : st = .microstep ↔ st' = .microstep) :
    crossover st = crossover st' := by
  funext lead trail
  simp [crossover, h]

/-- The override switches on no coil that was off and switches off none that was on. -/
theorem crossover_ne_zero {lead trail : U16} (hlead : lead ≠ 0) (htrail : trail ≠ 0) (style : Style) :
    (crossover style lead trail).1 ≠ 0 ∧ (crossover style lead trail).2 ≠ 0 := by
  rw [crossover]
  split
  · exact ⟨by decide, by decide⟩
  · exact ⟨hlead, htrail⟩

/-! ### The duties a curve table gives -/

/-- The entry `CURVE[i]` as the duty it is stored as (R24). -/
def curveDuty (m i : Nat) : U16 := BitVec.ofNat 16 (curveEntry m i)

theorem curveDuty_toNat {m i : Nat} (hm : LegalCount m) (hi : i ≤ m) : (curveDuty m i).toNat = curveEntry m i := by
  have hle := curveEntry_le hm hi
  rw [curveDuty, BitVec.toNat_ofNat, Nat.mod_eq_of_lt (by omega)]

theorem curveDuty_eq_iff {m i j : Nat} (hm : LegalCount m) (hi : i ≤ m) (hj : j ≤ m) :
    curveDuty m i = curveDuty m j ↔ curveEntry m i = curveEntry m j := by
  rw [← BitVec.toNat_inj, curveDuty_toNat hm hi, curveDuty_toNat hm hj]

theorem curveDuty_ne_zero_iff {m i : Nat} (hm : LegalCount m) (hi : i ≤ m) :
    curveDuty m i ≠ 0 ↔ 0 < curveEntry m i := by
  rw [ne_eq, ← BitVec.toNat_inj, curveDuty_toNat hm hi, Nat.pos_iff_ne_zero]
  rfl

theorem curveDuty_zero {m : Nat} (hm : LegalCount m) : curveDuty m 0 = 0 := by
  rw [curveDuty, curveEntry_zero hm]
  rfl

theorem curveDuty_last {m : Nat} (hm : LegalCount m) : curveDuty m m = 65535 := by
  rw [curveDuty, curveEntry_last hm]
  rfl

theorem curveDuty_middle {m : Nat} (hm : LegalCount m) : curveDuty m (m / 2) = 46340 := by
  rw [curveDuty, curveEntry_middle hm]
  rfl

/-- Up to `M` = 2048 only the first entry is 0: the quarter sine lies above its chord, so `CURVE[1]` is at least
`65535 / 2048`. -/
theorem curveEntry_pos {m i : Nat} (hm : LegalCount m) (h : m ≤ 2048) (hi : 1 ≤ i) (hi' : i ≤ m) :
    0 < curveEntry m i := by
  have hm0 : (0 : ℝ) < m := by exact_mod_cast (show 0 < m by omega)
  have h2048 : (m : ℝ) ≤ 2048 := by exact_mod_cast h
  have hi0 : (1 : ℝ) ≤ i := by exact_mod_cast hi
  have him : (i : ℝ) ≤ m := by exact_mod_cast hi'
  have hchord : (i : ℝ) / m ≤ quarterSine m i := by
    have hsin := Real.mul_le_sin (x := Real.pi * i / (2 * m)) (by positivity) (by
      rw [div_le_div_iff₀ (by positivity) (by norm_num)]
      nlinarith [Real.pi_pos])
    calc (i : ℝ) / m = 2 / Real.pi * (Real.pi * i / (2 * m)) := by field_simp
      _ ≤ quarterSine m i := hsin
  have hfirst : (1 : ℝ) / 2048 ≤ i / m := by
    rw [div_le_div_iff₀ (by norm_num) hm0]
    linarith
  rw [← curveEntry_zero hm]
  refine curveEntry_lt_of_rise hm (Nat.zero_le m) hi' ?_
  rw [quarterSine_zero]
  linarith

/-! ### The energizer on a curve table -/

/-- The phase is an index below `M` (R38). -/
theorem exists_phase {m : Nat} (hm : 0 < m) (p : Int) : ∃ i : Nat, i < m ∧ p % (m : Int) = i := by
  have hm' : (0 : Int) < m := by exact_mod_cast hm
  have hlow := Int.emod_nonneg p hm'.ne'
  have hhigh := Int.emod_lt_of_pos p hm'
  exact ⟨(p % (m : Int)).toNat, by omega, by omega⟩

theorem curveRead_curveTable {m i : Nat} (hi : i ≤ m) : curveRead (curveTable m) i = some (curveDuty m i) := by
  rw [curveRead, if_pos (Int.natCast_nonneg i), Int.toNat_natCast, curveTable_get hi, curveDuty]

/-- The two reads of R90 at phase `i`. -/
theorem curveRead_pair {m i : Nat} {p : Int} (hi : i ≤ m) (hp : p % (m : Int) = i) :
    curveRead (curveTable m) (phase m p) = some (curveDuty m i) ∧
    curveRead (curveTable m) ((m : Int) - phase m p) = some (curveDuty m (m - i)) := by
  have hmirror : (m : Int) - phase m p = (m - i : Nat) := by
    rw [phase, fmod, hp]
    omega
  refine ⟨?_, ?_⟩
  · rw [phase, fmod, hp, curveRead_curveTable hi]
  · rw [hmirror, curveRead_curveTable (Nat.sub_le m i)]

/-- What the energizer answers at phase `i` (R90). -/
theorem analogDuties_curveTable {m i : Nat} {p : Int} (hi : i ≤ m) (hp : p % (m : Int) = i) (style : Style) :
    analogDuties (curveTable m) m style p =
      some (pairDuties m p (crossover style (curveDuty m i) (curveDuty m (m - i)))) := by
  obtain ⟨hlead, htrail⟩ := curveRead_pair hi hp
  rw [analogDuties, hlead, htrail]

/-! ### The period -/

theorem leading_add_count {m : Nat} (hm : 0 < m) (p : Int) : leading m (p + m) = leading m p + 1 := by
  rw [leading, leading, trailing_add_count hm]

/-- Four full steps on, the phase and the trailing coil are the same (R97). -/
theorem phase_trailing_add_cycle {m : Nat} (hm : 0 < m) (p : Int) :
    phase m (p + 4 * m) = phase m p ∧ trailing m (p + 4 * m) = trailing m p := by
  have hcycle : ∀ k : Fin 4, k + 1 + 1 + 1 + 1 = k := by decide
  rw [show p + 4 * (m : Int) = p + m + m + m + m by ring]
  exact ⟨by simp only [phase_add_count], by simp only [trailing_add_count hm, hcycle]⟩

/-- The energizer looks at the phase, the pair and the style's class, and at nothing else of the position and style. -/
theorem analogDuties_congr {curve : List U16} {m : Nat} {st st' : Style} {p p' : Int}
    (hstyle : st = .microstep ↔ st' = .microstep) (hphase : phase m p = phase m p')
    (htrail : trailing m p = trailing m p') : analogDuties curve m st p = analogDuties curve m st' p' := by
  have hpair : pairDuties m p = pairDuties m p' := by
    unfold pairDuties leading
    rw [htrail]
  rw [analogDuties, analogDuties, hphase, hpair, crossover_congr hstyle]

/-! ### The pins -/

/-- The two readings of the pin map of R31 agree. -/
theorem coilOfPin_pinOfCoil (analog : Bool) (k : Fin 4) : coilOfPin analog (pinOfCoil analog k) = k := by
  revert analog k
  decide

/-- The pin a coil drives carries its register (R94). -/
theorem pinValue_pinOfCoil {s : State} {analog : Bool} (h : s.cfg.analog = analog) (k : Fin 4) :
    pinValue s (pinOfCoil analog k) = s.out.get k := by
  rw [pinValue, h, coilOfPin_pinOfCoil]

/-! ### The statements -/

/-- Settles O55: a reset and RELEASE leave `OUT` off, an ONESTEP leaves the excitation of its new position, and an error or
an idle step leaves `OUT`, the position and the table as they were. -/
theorem stepKeepsOutputsExcited : Obligations.StepKeepsOutputsExcited := by
  intro s t hs h
  obtain ⟨rest, hstep⟩ := step_next h
  have htaken := excited_withInputs hs rest
  rcases hstep with ⟨st, rfl⟩ | ⟨i, hexec⟩ | rfl
  · exact excited_takeReset st _
  · exact excited_exec htaken hexec
  · exact excited_idle htaken

/-- Settles O42: the duties are a mirrored pair of entries, which R63 says are equal at the middle only. -/
theorem overrideFiresOnlyAtTheCrossover : Obligations.OverrideFiresOnlyAtTheCrossover := by
  intro m p hm h
  obtain ⟨i, hi, hp⟩ := exists_phase (show 0 < m by omega) p
  obtain ⟨hlead, htrail⟩ := curveRead_pair hi.le hp
  refine ⟨_, _, hlead, htrail, ?_⟩
  rw [curveDuty_eq_iff hm hi.le (Nat.sub_le m i), curveDuty_ne_zero_iff hm hi.le, mirroredEntriesDiffer m i hm h hi.le, hp]
  omega

/-- Settles O43: at phase 0 the pair has the first and the last entry; elsewhere both entries are positive, and the override
switches neither coil off. -/
theorem analogOutputShape : Obligations.AnalogOutputShape := by
  intro m style p hm h
  obtain ⟨i, hi, hp⟩ := exists_phase (show 0 < m by omega) p
  refine ⟨_, analogDuties_curveTable hi.le hp style, fun hzero => ?_, fun hmoving k => ?_⟩
  · obtain rfl : i = 0 := by omega
    have hends : curveDuty m 0 ≠ curveDuty m (m - 0) := by
      rw [Nat.sub_zero, curveDuty_zero hm, curveDuty_last hm]
      decide
    rw [crossover_of_ne hends, Nat.sub_zero, curveDuty_zero hm, curveDuty_last hm]
    exact ⟨pairDuties_get_trailing m p _, fun k hk => pairDuties_get_of_ne_trailing hk _⟩
  · have hpos {j : Nat} (hj : 1 ≤ j) (hj' : j ≤ m) : curveDuty m j ≠ 0 :=
      (curveDuty_ne_zero_iff hm hj').2 (curveEntry_pos hm h hj hj')
    obtain ⟨hlead, htrail⟩ :=
      crossover_ne_zero (hpos (j := i) (by omega) hi.le) (hpos (j := m - i) (by omega) (Nat.sub_le m i)) style
    exact pairDuties_get_ne_zero_iff hlead htrail m p k

/-- Settles O44: at phase `M/2` both reads are the middle entry, which is 46340. -/
theorem crossoverDuties : Obligations.CrossoverDuties := by
  intro m style p hm hp
  have hmirror : m - m / 2 = m / 2 := by omega
  have hduties := analogDuties_curveTable (i := m / 2) (Nat.div_le_self m 2) hp style
  rw [hmirror, curveDuty_middle hm] at hduties
  refine ⟨_, hduties, ?_, fun hstyle => ?_⟩
  · rintro rfl
    simp [crossover_microstep]
  · simp [crossover_of_equal hstyle]

/-- Settles O45: the energizer reads the phase, the pair and the style's class, which are the same after four full steps. -/
theorem analogExcitationPeriod : Obligations.AnalogExcitationPeriod := by
  intro curve m st st' p hm hstyle
  obtain ⟨hphase, htrail⟩ := phase_trailing_add_cycle hm p
  exact ⟨analogDuties_congr hstyle hphase htrail, trailing_add_count hm p, leading_add_count hm p, phase_add_count m p⟩

/-- Settles O46: each named pin is the pin of its coil in the mode's map. -/
theorem pinsCarryTheirCoil : Obligations.PinsCarryTheirCoil := by
  refine fun s => ⟨fun h => ?_, fun h => ?_⟩
  · exact ⟨pinValue_pinOfCoil h 0, pinValue_pinOfCoil h 1, pinValue_pinOfCoil h 2, pinValue_pinOfCoil h 3⟩
  · exact ⟨pinValue_pinOfCoil h 0, pinValue_pinOfCoil h 1, pinValue_pinOfCoil h 2, pinValue_pinOfCoil h 3⟩

end Sys2Proof.Machine
end

section
/-! PROOFS. The family 43_release.md: RELEASE turns the outputs off (R100, R101), is idempotent (R102), and has no effect on
the ONESTEP after it (R103). -/

namespace Sys2Proof.Machine

/-! ### The answer of RELEASE -/

/-- The state an accepted RELEASE leaves: only `OUT`, the port and the records are written (R100, R101). -/
abbrev afterRelease (s : State) : State := respond .ok (writeOutputs (Outputs.off s.cfg.analog) s)

theorem exec_release {s : State} (hc : s.cfgErr = false) : exec .release s = .next (afterRelease s) := by
  rw [exec, execRelease, hc, if_neg Bool.false_ne_true]

/-- Off is the value 0 in either mode (R19). -/
@[simp] theorem off_value (analog : Bool) (k : Fin 4) : (Outputs.off analog).value k = 0 := by
  cases analog <;> fin_cases k <;> rfl

/-! ### The ONESTEP after RELEASE -/

/-- The converse of `onestep_next`: a valid configuration, a new position in range and an energizer that answers there are
all a successful ONESTEP needs (R67). -/
theorem onestep_of_energized {dir : Direction} {style : Style} {s : State} {ts : Option Table} {o : Outputs}
    (hc : s.cfgErr = false) (hr : inRange s.build (computedPos s dir style) = true)
    (he : Energized s style (computedPos s dir style) ts o) :
    onestep dir style s = .next (commitStep (computedPos s dir style) ts o s) := by
  rcases he with ⟨ha, table, htable, rfl, rfl⟩ | ⟨ha, rfl, henergize⟩
  · have hp : computedPos s dir style = move dir s.pos 1 := by simp [computedPos, ha]
    rw [hp] at hr ⊢
    simp [onestep, hc, ha, htable, onestepDigital, hr]
  · have hp : computedPos s dir style = move dir s.pos (stepSize s.cfg.m s.pos dir style) := by
      simp [computedPos, ha, nextPos]
    rw [hp] at hr henergize ⊢
    simp [onestep, hc, ha, onestepAnalog, hr, henergize]

/-- Nothing an ONESTEP computes with reads `OUT`, so its answer after RELEASE has the same new values (R103). -/
theorem onestep_afterRelease {dir : Direction} {style : Style} {s : State} {ts : Option Table} {o : Outputs}
    (hc : s.cfgErr = false) (hr : inRange s.build (computedPos s dir style) = true)
    (he : Energized s style (computedPos s dir style) ts o) :
    onestep dir style (afterRelease s) = .next (commitStep (computedPos s dir style) ts o (afterRelease s)) :=
  onestep_of_energized (s := afterRelease s) hc hr he

/-! ### The statements -/

/-- Settles O22: an ONESTEP with the response OK is one commit, and after RELEASE it commits the same values. -/
theorem steppingResumesAfterRelease : Obligations.SteppingResumesAfterRelease := by
  intro i s t u hi hrelease _ hstep hok
  rcases exec_next hstep with ⟨e, he, rfl⟩ | ⟨dir, style, hf, hc, hr, ts, o, henergized, rfl⟩ | ⟨rfl, -, -⟩
  · simp [he] at hok
  · obtain rfl : afterRelease s = t := by simpa [exec_release hc] using hrelease
    exact ⟨_, (exec_onestep hf _).trans (onestep_afterRelease hc hr henergized), by simp [SameMachine], rfl⟩
  · simp [stepFields] at hi

/-- Settles O20: `Outputs.off` is the four zeros in the shape of the mode. -/
theorem releaseTurnsAllCoilsOff : Obligations.ReleaseTurnsAllCoilsOff := by
  refine fun s => ⟨fun hc => exec_of_cfgErr hc _, fun hc => ⟨Outputs.off s.cfg.analog, ?_, rfl⟩⟩
  rw [← respond_writeOutputs_eq_afterSuccess]
  exact exec_release hc

/-- Settles O21: a second RELEASE starts where the first one left the outputs off, and writes the same values again. -/
theorem releaseIsIdempotent : Obligations.ReleaseIsIdempotent := by
  intro s hc
  refine ⟨afterRelease s, afterRelease (afterRelease s), exec_release hc, exec_release (s := afterRelease s) hc,
    by simp [SameMachine], rfl, rfl, fun k => off_value _ k, rfl, fun hoff => ?_⟩
  simp [SameMachine, hoff]

end Sys2Proof.Machine
end

section
/-! PROOFS. The family 60_exceptions.md: errors are precise (R106), ordered (R112), and all that an invalid configuration
answers (R107); a block with nothing to do keeps its state (R117). -/

namespace Sys2Proof.Machine

/-- A transaction with neither a reset nor a command is used up, and the block is idle (R117). -/
theorem step_quiet {s : State} {p : PortInputs} {rest : List PortInputs} (h : s.inputs = p :: rest)
    (hrst : p.rst = false) (hcmd : p.cmdValid = false) : step s = .next (idle { s with inputs := rest }) := by
  rw [step_cons h, hrst, if_neg Bool.false_ne_true, hcmd, if_neg Bool.false_ne_true]

/-! ### The statements -/

/-- Settles O25: a command ends in an error, which the statement describes, or in a success, whose response is OK. -/
theorem errorsChangeNothing : Obligations.ErrorsChangeNothing := by
  intro i s t e p h hrsp he
  rcases exec_error_or_success h with ⟨raised, -, rfl⟩ | ⟨pos, ts, o, rfl⟩
  · obtain ⟨rfl, -⟩ : raised = e ∧ s.pos = p := by simpa using hrsp
    exact raise_eq_afterError raised s
  · obtain ⟨rfl, -⟩ : .ok = e ∧ pos = p := by simpa [afterSuccess] using hrsp
    exact absurd rfl he

/-- Settles O26: under the invariant no command stops, and every next state carries the error due. -/
theorem firstApplicableErrorIsReported : Obligations.FirstApplicableErrorIsReported := by
  intro i s hs
  obtain ⟨t, h⟩ := exec_isNext hs i
  exact ⟨t, h, exec_rsp h⟩

/-- Settles O8: whether nothing is presented or a transaction without reset and command, the step is `idle`. -/
theorem idleBlockKeepsItsState : Obligations.IdleBlockKeepsItsState := by
  rintro s (hnil | ⟨p, rest, hcons, hrst, hcmd⟩)
  · have hkept : s.inputs.tail = s.inputs := by rw [hnil, List.tail_nil]
    rw [hkept]
    exact step_nil hnil
  · rw [hcons]
    exact step_quiet hcons hrst hcmd

/-- Settles O10: `CFG_ERR` is the first thing every command checks, and raising an error leaves `afterError`. -/
theorem invalidConfigurationAnswersEveryCommand : Obligations.InvalidConfigurationAnswersEveryCommand := by
  intro s i hc
  rw [← raise_eq_afterError]
  exact exec_of_cfgErr hc i

end Sys2Proof.Machine
end

section
/-! PROOFS. The family 70_reset_and_hazards.md: the validity of a configuration (R119), what a reset leaves (R118), and the
step that runs a presented command (R135). -/

namespace Sys2Proof.Machine

/-! ### The configuration -/

/-- Digital mode looks at no other strap (R119). -/
theorem configValid_of_digital {st : Straps} (ha : st.analog = false) (b : Build) : configValid b st = true := by
  rw [configValid, ha, if_neg Bool.false_ne_true]

/-- Analog mode asks for an even count within the build's limit and for the frequency strap (R119). -/
theorem configValid_iff_of_analog {st : Straps} (ha : st.analog = true) (b : Build) :
    configValid b st = true ↔ 2 ≤ st.m ∧ st.m % 2 = 0 ∧ st.m ≤ b.mMax ∧ st.freqOk = true := by
  rw [configValid, if_pos ha]
  simp only [Bool.and_eq_true, decide_eq_true_eq, beq_iff_eq, and_assoc]

/-- A strap that fits its port reaches the block unchanged (R6, R32). -/
theorem latchStraps_of_lt {b : Build} {st : Straps} (hm : st.m < 2 ^ b.mW) : latchStraps b st = st := by
  rw [latchStraps, Nat.mod_eq_of_lt hm]

/-! ### What a reset leaves -/

/-- An analog block with a valid configuration has the table for its count (R34, R118). -/
theorem curveFor_of_valid {b : Build} {st : Straps} (ha : st.analog = true) (hv : configValid b st = true) :
    curveFor b st = some (curveTable st.m) := by
  rw [curveFor, ha, hv, Bool.and_self, if_pos rfl]

/-- A digital block and one with an invalid configuration have no curve (R34). -/
theorem curveFor_of_absent {b : Build} {st : Straps} (h : st.analog = false ∨ configValid b st = false) :
    curveFor b st = none := by
  rw [curveFor, Bool.and_eq_false_iff.2 h, if_neg Bool.false_ne_true]

/-- The outputs that are off have the shape of the mode (R19). -/
@[simp] theorem off_isDuties (analog : Bool) : (Outputs.off analog).isDuties = analog := by
  cases analog <;> rfl

/-! ### The step by its transaction -/

/-- A transaction with `rst` = 1 is a reset, whatever else it presents (R118, R121). -/
theorem step_reset {s : State} {p : PortInputs} {rest : List PortInputs} (h : s.inputs = p :: rest)
    (hrst : p.rst = true) : step s = .next (takeReset p.straps { s with inputs := rest }) := by
  rw [step_cons h, if_pos hrst]

/-- A transaction with a command and no reset runs the decoded command (R135). -/
theorem step_command {s : State} {p : PortInputs} {rest : List PortInputs} (h : s.inputs = p :: rest)
    (hrst : p.rst = false) (hcmd : p.cmdValid = true) : step s = exec (decode p.cmd) { s with inputs := rest } := by
  rw [step_cons h, hrst, if_neg Bool.false_ne_true, if_pos hcmd]

/-! ### The statements -/

/-- Settles O4: without a reset the presented command is what the step runs. -/
theorem stepRunsTheDecodedCommand : Obligations.StepRunsTheDecodedCommand :=
  fun _ _ _ => step_command

/-- Settles O6: the step is `takeReset`, and a strap of `MW` bits is latched as it is. -/
theorem resetSetsEveryRegister : Obligations.ResetSetsEveryRegister := by
  intro s p rest hcons hrst hm
  have hlatch : latchStraps s.build p.straps = p.straps := latchStraps_of_lt hm
  refine ⟨_, step_reset hcons hrst, rfl, hlatch, by simp [hlatch], rfl, rfl, fun k => off_value _ k, off_isDuties _,
    ?present, ?absent, rfl, rfl, rfl⟩
  case present =>
    rintro ⟨ha, hvalid⟩
    rw [takeReset_curve, hlatch]
    exact curveFor_of_valid ha (by simpa [hlatch] using hvalid)
  case absent =>
    intro habsent
    rw [takeReset_curve, hlatch]
    exact curveFor_of_absent (by simpa [hlatch] using habsent)

/-- Settles O9, by the mode: digital mode is always valid, and analog mode has the four conditions. -/
theorem configurationValidity : Obligations.ConfigurationValidity := by
  intro b st
  cases ha : st.analog with
  | false => simp [configValid_of_digital ha]
  | true => simp [configValid_iff_of_analog ha]

end Sys2Proof.Machine
end

section
/-! PROOFS. The family other: the decoder on any number against the encoder (R48, R53), the error codes (R105), a reset
through the port and the power-on state (R34, R118), the main invariant from step to step, and the two modes' rotation
through the pins (R98). -/

namespace Sys2Proof.Machine

/-! ### The decoder on any number -/

/-- Every 4-bit word is the word of the command it decodes to (R53). -/
@[simp] theorem encode_decode : ∀ w : CmdWord, encode (decode w) = w := by decide

/-- A number with no bit above bit 3 is read as the 4-bit word it is (R48). -/
theorem decodeTableWord_of_lt {nbits w : Nat} (hn : 4 ≤ nbits) (hw : w < 16) :
    decodeTableWord nbits w = some (decode (BitVec.ofNat 4 w)) := by
  have hfits : w < 2 ^ nbits := hw.trans_le (Nat.pow_le_pow_right two_pos hn)
  rw [decodeTableWord, Nat.mod_eq_of_lt hfits, decodeNat, if_pos hw]

/-- A number with a bit above bit 3 is answered with no command. -/
theorem decodeTableWord_of_le {nbits w : Nat} (hw : 16 ≤ w) (hfits : w < 2 ^ nbits) : decodeTableWord nbits w = none := by
  rw [decodeTableWord, Nat.mod_eq_of_lt hfits, decodeNat, if_neg hw.not_gt]

/-! ### The main invariant -/

/-- The invariant speaks of the registers and the configuration only, not of the port or the records. -/
theorem inv_of_sameMachine {s t : State} (h : s.Inv) (hsame : SameMachine s t) : t.Inv := by
  cases t
  obtain ⟨rfl, rfl, rfl, rfl, rfl, rfl, rfl⟩ := hsame
  exact ⟨h.build_wf, h.latched, h.cfgErr_eq, h.curve_eq, h.pos_range, h.tsel_analog, h.out_shape, h.invalid_rest⟩

/-- A success keeps the invariant if the configuration is valid and what it writes is as the mode asks: a position in
range, no table in analog mode, outputs in the shape of the mode. -/
theorem inv_afterSuccess {s : State} (h : s.Inv) (hc : s.cfgErr = false) {p : Int} {ts : Option Table} {o : Outputs}
    (hr : inRange s.build p = true) (hts : s.cfg.analog = true → ts = none) (ho : o.isDuties = s.cfg.analog) :
    (afterSuccess s p ts o).Inv where
  build_wf := h.build_wf
  latched := h.latched
  cfgErr_eq := h.cfgErr_eq
  curve_eq := h.curve_eq
  pos_range := hr
  tsel_analog := hts
  out_shape := ho
  invalid_rest hinvalid := absurd hinvalid (by simp [afterSuccess, hc])

/-- What the energizer of a mode writes is as the mode asks (R17, R19). -/
theorem tsel_and_shape_of_energized {s : State} (h : s.Inv) {style : Style} {p : Int} {ts : Option Table} {o : Outputs}
    (he : Energized s style p ts o) : (s.cfg.analog = true → ts = none) ∧ o.isDuties = s.cfg.analog := by
  rcases he with ⟨ha, table, -, -, rfl⟩ | ⟨ha, rfl, hduties⟩
  · simp [ha, energizeDigital, Outputs.isDuties]
  · obtain ⟨curve, q, -, -, rfl⟩ := energizeAnalog_eq_some hduties
    exact ⟨h.tsel_analog, ha.symm⟩

/-- Every command keeps the invariant: an error writes nothing, the two kinds of success write what the mode asks. -/
theorem inv_exec {i : Instr} {s t : State} (h : s.Inv) (hexec : exec i s = .next t) : t.Inv := by
  rcases exec_next hexec with ⟨e, -, rfl⟩ | ⟨_, _, -, hc, hr, ts, o, he, rfl⟩ | ⟨-, hc, rfl⟩
  · exact inv_of_sameMachine h (sameMachine_raise e s)
  · obtain ⟨hts, ho⟩ := tsel_and_shape_of_energized h he
    exact inv_afterSuccess h hc hr hts ho
  · exact inv_afterSuccess h hc h.pos_range h.tsel_analog (off_isDuties _)

/-- The power-on state is the default block reset to the default straps (R34, R118). -/
theorem reset_eq_takeReset : State.reset = takeReset defaultStraps State.reset := rfl

/-! ### The rotation through the pins -/

/-- `p` full steps into analog mode the trailing coil is the number of full steps modulo 4 (R89). -/
theorem trailing_mul_count {m : Nat} (hm : 0 < m) (p : Int) : trailing m (p * m) = wrapIndex 4 p := by
  rw [trailing, fdiv, Int.mul_ediv_cancel p (by omega)]

/-- The default SINGLE table, entry by entry: the coil it energizes in digital mode and the coil of the entry's index in
analog mode drive the same pin (R29, R31). -/
theorem default_single_pins : ∀ i k : Fin 4, (defaultBuild.patSingle.get i).getLsbD k.val = true ↔
    pinOfCoil false k = pinOfCoil true i := by decide

/-! ### The statements -/

/-- Settles O54: a reset establishes the invariant anew, a command keeps it, and an idle step
leaves the registers and the configuration alone. -/
theorem stepKeepsTheInvariant : Obligations.StepKeepsTheInvariant := by
  intro s t hs h
  obtain ⟨rest, hstep⟩ := step_next h
  have htaken := inv_withInputs hs rest
  rcases hstep with ⟨st, rfl⟩ | ⟨i, hexec⟩ | rfl
  · exact inv_takeReset htaken.build_wf st
  · exact inv_exec htaken hexec
  · exact inv_of_sameMachine htaken (sameMachine_idle _)

/-- Settles O1: on numbers below 16 the decoder is `decode` on the 4-bit word, which `encode` inverts from both sides, and
it answers a wider number with nothing. -/
theorem decodeAndEncodeAreInverse : Obligations.DecodeAndEncodeAreInverse := by
  refine fun nbits hn => ⟨fun i _ => ?_, fun w hw => ⟨decode (BitVec.ofNat 4 w), decodeTableWord_of_lt hn hw, ?_⟩,
    fun w => decodeTableWord_of_le⟩
  · rw [decodeTableWord_of_lt hn (encode i).isLt, BitVec.ofNat_toNat, BitVec.setWidth_eq, decode_encode]
  · rw [encode_decode, BitVec.toNat_ofNat, Nat.mod_eq_of_lt hw]

/-- Settles O47: both sides depend on `p` modulo 4 only, and the four entries of the table are compared pin by pin. -/
theorem bothModesRotateAlike : Obligations.BothModesRotateAlike := by
  intro m p k hm
  rw [trailing_mul_count hm]
  exact default_single_pins (wrapIndex 4 p) k

/-- Settles O2: each word is the word of its row's command, from which the decoder reads the command back. -/
theorem opcodeMapIsDecoded : Obligations.OpcodeMapIsDecoded :=
  ⟨decode_encode .onestepFSingle, decode_encode .onestepFDouble, decode_encode .onestepFInterleave,
    decode_encode .onestepFMicrostep, decode_encode .onestepBSingle, decode_encode .onestepBDouble,
    decode_encode .onestepBInterleave, decode_encode .onestepBMicrostep, decode_encode .release,
    decode_encode .reserved1001, decode_encode .reserved1010, decode_encode .reserved1011, decode_encode .reserved1100,
    decode_encode .reserved1101, decode_encode .reserved1110, decode_encode .reserved1111⟩

/-- Settles O7: the step is `takeReset`, which latches the straps as the port carries them and writes neither record. -/
theorem resetKeepsTheRecords : Obligations.ResetKeepsTheRecords :=
  fun _ _ _ hcons hrst => ⟨_, step_reset hcons hrst, rfl, rfl, rfl, rfl, rfl, rfl⟩

/-- Settles O24, error by error. -/
theorem errorCodesAreTheTable : Obligations.ErrorCodesAreTheTable := by
  refine ⟨rfl, rfl, rfl, rfl, rfl, fun e => ?_⟩
  cases e <;> decide

/-- Settles O53: the power-on state is a reset of a block with legal parameters, with its outputs off, a quiet port and
empty records. -/
theorem resetStateMeetsTheInvariants : Obligations.ResetStateMeetsTheInvariants := by
  refine ⟨?_, ?_, recorded_of_quiet rfl rfl rfl⟩
  · rw [reset_eq_takeReset]
    exact inv_takeReset (by decide) defaultStraps
  · rw [reset_eq_takeReset]
    exact excited_takeReset defaultStraps State.reset

end Sys2Proof.Machine
end
